-- ==== Sys2Proof/Word.lean ====
section
/-! DEFINITION. The words of the FSMM: bytes, host command words, segment codes (spec rules R12, R48, R57). -/

namespace Sys2Proof

/-- A byte, an unsigned value 0 to 255 (R12). -/
abbrev Byte := BitVec 8

/-- A host command word: bits 9:8 are `op`, bits 7:0 are `data` (R48). -/
abbrev Hcw := BitVec 10

/-- A 7-segment code, bits 6:0 of a SEG7 byte (R57). -/
abbrev SegCode := BitVec 7

/-- A 16-bit field of an event record (R38) or of the `buf_level` output (R23). -/
abbrev Half := BitVec 16

end Sys2Proof
end

