-- ==== Sys2Proof/Config.lean ====
section
/-! DEFINITION. The fixed constants of rule R6 (and the record kinds of R58), each under the spec's own name, and the three
implementation parameters of rules R7 to R9. -/

namespace Sys2Proof

namespace Config

/-- Sync-marker byte (R6). -/
def SYNC : Byte := 0x9B
/-- Minimum buffer length for a scan iteration (R6, R76). -/
def MIN_SCAN : Nat := 6
/-- Minimum buffer length, marker included, before the length byte is read (R6, R79). -/
def MIN_HDR : Nat := 2
/-- `totalLen = lengthField + LEN_OVERHEAD` (R6, R80). -/
def LEN_OVERHEAD : Nat := 3
/-- `m[1]` of a canonical height frame (R6). -/
def H_LEN : Byte := 0x07
/-- `m[2]` of a canonical height frame (R6). -/
def H_TYPE : Byte := 0x12
/-- Minimum frame length for the height test (R6). -/
def H_MIN : Nat := 9
/-- First offset of the height payload `m[3..7)` (R6). -/
def H_PAY_LO : Nat := 3
/-- End offset of the height payload `m[3..7)` (R6). -/
def H_PAY_HI : Nat := 7
/-- `m[1]` of a status frame (R6). -/
def S_LEN : Byte := 0x04
/-- `m[2]` of a status frame (R6). -/
def S_TYPE : Byte := 0x11
/-- Minimum frame length for the status test (R6). -/
def S_MIN : Nat := 7
/-- First byte of a short-form height message (R6). -/
def SF_B0 : Byte := 0x07
/-- Second byte of a short-form height message (R6). -/
def SF_B1 : Byte := 0x12
/-- Minimum orphan-span length for the short-form test (R6). -/
def SF_MIN : Nat := 8
/-- First offset of the short-form payload `b[2..5)` (R6). -/
def SF_PAY_LO : Nat := 2
/-- End offset of the short-form payload `b[2..5)` (R6). -/
def SF_PAY_HI : Nat := 5
/-- The blank display position (R6). -/
def BLANK : Byte := 0x00
/-- The decimal-point bit of a segment byte (R6). -/
def DP_BIT : Nat := 7

/-- The segment code of a digit: the rows of SEGTAB, each code written here and nowhere else (R6, R97). -/
def SEGCODE (d : Fin 10) : SegCode :=
  match d with
  | 0 => 0b0111111
  | 1 => 0b0000110
  | 2 => 0b1011011
  | 3 => 0b1001111
  | 4 => 0b1100110
  | 5 => 0b1101101
  | 6 => 0b1111101
  | 7 => 0b0000111
  | 8 => 0b1111111
  | 9 => 0b1101111

/-- SEGTAB, the ten segment codes with their digits (R97). -/
def SEGTAB : List (SegCode × Fin 10) := [0, 1, 2, 3, 4, 5, 6, 7, 8, 9].map fun d => (SEGCODE d, d)

/-- Record kind of a HeightEvent (R58). -/
def KIND_HEIGHT : Byte := 0x01
/-- Record kind of a StatusEvent (R58). -/
def KIND_STATUS : Byte := 0x02
/-- Record kind of an UnknownMessageEvent (R58). -/
def KIND_UNKNOWN : Byte := 0x03
/-- Record kind of a DiagnosticEvent (R58). -/
def KIND_DIAG : Byte := 0x04
/-- Largest payload count of an UnknownMessageEvent record (R58, R61). -/
def PAYLOAD_MAX : Nat := 254
/-- Reason code of a NO_SYNC diagnostic (R62). -/
def REASON_NO_SYNC : Byte := 0x01
/-- Reason code of an ORPHAN diagnostic (R62). -/
def REASON_ORPHAN : Byte := 0x02
/-- Largest mantissa of a Height (R27). -/
def MANT_MAX : Nat := 9999
/-- Largest scale of a Height (R27). -/
def SCALE_MAX : Nat := 3
/-- Lower bound of BUF_CAP: the largest frame, `255 + LEN_OVERHEAD = 258` bytes (R7). -/
def BUF_CAP_MIN : Nat := 255 + LEN_OVERHEAD
/-- Upper bound of BUF_CAP (R7). -/
def BUF_CAP_MAX : Nat := 65535
/-- Default of BUF_CAP (R7). -/
def BUF_CAP_DEFAULT : Nat := 512

end Config

/-- MULTI_POINT_RULE (R9): what Variant A does with two or more decimal points. `prefixCut` is the spec's PREFIX. -/
inductive MultiPointRule where
  | invalid
  | prefixCut
  deriving DecidableEq, Repr

/-- The implementation parameters (R7, R8, R9); R10 says there is no other.
They are configuration, not state (R16): see assumption 1 for why State carries them. -/
structure Params where
  /-- BUF_CAP (R7) -/
  bufCap : Nat
  /-- DIAG_ENABLE (R8) -/
  diagEnable : Bool
  /-- MULTI_POINT_RULE (R9) -/
  multiPoint : MultiPointRule
  deriving DecidableEq, Repr

/-- The spec's defaults (R7, R8, R9). -/
def Params.default : Params :=
  { bufCap := Config.BUF_CAP_DEFAULT, diagEnable := false, multiPoint := .invalid }

/-- The parameters are legal: `258 <= BUF_CAP <= 65535` (R7). -/
def Params.wf (p : Params) : Bool :=
  decide (Config.BUF_CAP_MIN ≤ p.bufCap) && decide (p.bufCap ≤ Config.BUF_CAP_MAX)

end Sys2Proof
end

