-- ==== Sys2Proof/Syntax.lean ====
section
/-! DEFINITION. One constructor per row of spec/opcode_table.json. The rows belong to the five formats of rule R47: host
command words, wire frames, short forms, segment bytes, and event records. Every bit of an encoded word that the row leaves
open is a field here, the bytes no rule examines too, so that encoding drops nothing. -/

namespace Sys2Proof

/-- What the FSMM's words stand for, row by row of the opcode table. -/
inductive Instr where
  -- HCW: host command words (R48, R49)
  /-- PUSH `b` (R67) -/
  | push (b : Byte)
  /-- END (R69) -/
  | endChunk
  /-- RESET (R70) -/
  | reset
  /-- RESERVED_01: `op = 01`, `data` not zero (R71) -/
  | reserved01 (data : Byte)
  /-- RESERVED_10: `op = 10`, `data` not zero (R71) -/
  | reserved10 (data : Byte)
  /-- RESERVED_11: `op = 11`, any `data` (R71) -/
  | reserved11 (data : Byte)
  -- FRAME: canonical frames (R51, R52)
  /-- HEIGHT frame, T = 10: payload `p0..p3`, then `m[7]`, `m[8]` and the trailer, never examined (R53, R88) -/
  | height (p0 p1 p2 p3 m7 m8 trailer : Byte)
  /-- STATUS frame, T = 7: `value1`, `value2`, then `m[5]`, never reported, and the trailer (R54, R89) -/
  | status (value1 value2 m5 trailer : Byte)
  /-- UNKNOWN frame: length field, type byte, and `rest = m[3..T)`, whose last byte, if any, is the trailer (R55, R90) -/
  | unknown (lengthField typeByte : Byte) (rest : List Byte)
  -- SHORT: short-form message in an orphan span (R56)
  /-- SHORT_HEIGHT: digits `d0 d1 d2`, then at least 3 unexamined bytes (R56, R93) -/
  | shortHeight (d0 d1 d2 : Byte) (rest : List Byte)
  -- SEG7: segment bytes (R57)
  /-- SEG_BLANK (R95) -/
  | segBlank
  /-- SEG_0 (R97) -/
  | seg0 (dp : Bool)
  /-- SEG_1 (R97) -/
  | seg1 (dp : Bool)
  /-- SEG_2 (R97) -/
  | seg2 (dp : Bool)
  /-- SEG_3 (R97) -/
  | seg3 (dp : Bool)
  /-- SEG_4 (R97) -/
  | seg4 (dp : Bool)
  /-- SEG_5 (R97) -/
  | seg5 (dp : Bool)
  /-- SEG_6 (R97) -/
  | seg6 (dp : Bool)
  /-- SEG_7 (R97) -/
  | seg7 (dp : Bool)
  /-- SEG_8 (R97) -/
  | seg8 (dp : Bool)
  /-- SEG_9 (R97) -/
  | seg9 (dp : Bool)
  /-- SEG_INVALID: every byte no other SEG row takes (R98) -/
  | segInvalid (dp : Bool) (seg : SegCode)
  -- EVREC: event records (R58)
  /-- EV_HEIGHT record (R59) -/
  | evHeight (mant : Half) (scale : Byte)
  /-- EV_STATUS record (R60) -/
  | evStatus (value1 value2 : Byte)
  /-- EV_UNKNOWN record (R61); the count byte `n` is the payload's length -/
  | evUnknown (lengthField typeByte : Byte) (payload : List Byte)
  /-- EV_DIAG record (R62) -/
  | evDiag (reason : Byte) (count : Half)
  deriving DecidableEq, Repr

/-- The five formats of rule R47. -/
inductive Format where
  | hcw
  | frame
  | short
  | seg7
  | evrec
  deriving DecidableEq, Repr

/-- The format of each row ("format" in the opcode table). -/
def Instr.format : Instr → Format
  | .push _ | .endChunk | .reset | .reserved01 _ | .reserved10 _ | .reserved11 _ => .hcw
  | .height .. | .status .. | .unknown .. => .frame
  | .shortHeight .. => .short
  | .segBlank | .seg0 _ | .seg1 _ | .seg2 _ | .seg3 _ | .seg4 _ | .seg5 _ | .seg6 _ | .seg7 _ | .seg8 _ | .seg9 _
  | .segInvalid .. => .seg7
  | .evHeight .. | .evStatus .. | .evUnknown .. | .evDiag .. => .evrec

end Sys2Proof
end

