-- ==== Sys2Proof/WellFormed.lean ====
section
/-! DEFINITION. Which terms of Instr the spec's encodings admit: the conditions a row's words meet beyond its fixed bits. -/

namespace Sys2Proof

open Config

/-- Well-formedness of an instruction, row by row.
* RESERVED_01 and RESERVED_10: `data` is not zero, for a zero is END or RESET (R49).
* UNKNOWN: the frame has `T = L + LEN_OVERHEAD` bytes (R51) and neither of the two higher-priority classes takes it (R52).
* SHORT_HEIGHT: the span has at least SF_MIN bytes and, being an orphan span, no SYNC byte (R56, R93).
* SEG_INVALID: not the blank byte and not a code of SEGTAB (R98).
* EV_HEIGHT: `mant <= 9999`, `scale <= 3` (R59). EV_UNKNOWN: the payload has the length of the slice
  `m[3 .. max(3, T-1))`, which is `L - 1` bytes and none when `L = 0` (R55, R61).
* EV_DIAG: the reason is NO_SYNC or ORPHAN, the count at least 1 (R62, R117). -/
def Instr.wf : Instr → Bool
  | .push _ => true
  | .endChunk => true
  | .reset => true
  | .reserved01 data => decide (data ≠ 0)
  | .reserved10 data => decide (data ≠ 0)
  | .reserved11 _ => true
  | .height .. => true
  | .status .. => true
  | .unknown len ty rest =>
      decide ((SYNC :: len :: ty :: rest).length = len.toNat + LEN_OVERHEAD) && !decide (len = H_LEN ∧ ty = H_TYPE) && !decide (len = S_LEN ∧ ty = S_TYPE)
  | .shortHeight d0 d1 d2 rest =>
      decide (SF_MIN ≤ SF_PAY_HI + rest.length) && !(d0 :: d1 :: d2 :: rest).contains SYNC
  | .segBlank => true
  | .seg0 _ => true
  | .seg1 _ => true
  | .seg2 _ => true
  | .seg3 _ => true
  | .seg4 _ => true
  | .seg5 _ => true
  | .seg6 _ => true
  | .seg7 _ => true
  | .seg8 _ => true
  | .seg9 _ => true
  | .segInvalid dp seg => (SEGTAB.lookup seg).isNone && !decide (BitVec.ofBool dp ++ seg = BLANK)
  | .evHeight mant scale => decide (mant.toNat ≤ MANT_MAX) && decide (scale.toNat ≤ SCALE_MAX)
  | .evStatus .. => true
  | .evUnknown len _ payload => decide (payload.length = max 3 (len.toNat + LEN_OVERHEAD - 1) - 3)
  | .evDiag reason count =>
      decide (reason = REASON_NO_SYNC ∨ reason = REASON_ORPHAN) && decide (1 ≤ count.toNat)

end Sys2Proof
end

