-- ==== Sys2Proof/Decode.lean ====
section
/-! DEFINITION. The decoder of the five formats, total on any word and rejecting by name, and after it the encoder, written
from the same tables (spec/30_encoding.md, spec/43_seven_segment.md rule R97). -/

namespace Sys2Proof

open Config

/-! ## Bit fields and byte order -/

/-- Field `op` of a host command word: bits 9:8 (R48). -/
def hcwOp (w : Hcw) : BitVec 2 := w.extractLsb' 8 2

/-- Field `data` of a host command word: bits 7:0 (R48). -/
def hcwData (w : Hcw) : Byte := w.extractLsb' 0 8

/-- The host command word with these two fields (R48). -/
def hcwWord (op : BitVec 2) (data : Byte) : Hcw := op ++ data

/-- Bit 7 of a segment byte, the decimal-point bit (R57, R96). -/
def segPoint (v : Byte) : Bool := v.getLsbD DP_BIT

/-- Bits 6:0 of a segment byte, those below the point: the segment code (R57). -/
def segCode (v : Byte) : SegCode := v.extractLsb' 0 DP_BIT

/-- The segment byte with this decimal-point bit and this code (R57). -/
def segByte (dp : Bool) (seg : SegCode) : Byte := BitVec.ofBool dp ++ seg

/-- The 16-bit field whose bytes are sent most significant first (R38). -/
def halfOfBytes (hi lo : Byte) : Half := hi ++ lo

/-- The first byte sent of a 16-bit field (R38). -/
def highByte (h : Half) : Byte := h.extractLsb' 8 8

/-- The second byte sent of a 16-bit field (R38). -/
def lowByte (h : Half) : Byte := h.extractLsb' 0 8

/-- `T = L + LEN_OVERHEAD`, without wrap-around (R51, R80). -/
def totalLen (l : Byte) : Nat := l.toNat + LEN_OVERHEAD

/-! ## Encoded words -/

/-- An encoded word of one of the five formats (R47). Only an `hcw` is ever presented by the host (R63); the other four stand
between the units of the block, and the format a word has is given by where it stands, not by its bits. -/
inductive Code where
  /-- a host command word on `cmd_data` -/
  | hcw (w : Hcw)
  /-- a frame, as step 7 of the scan hands it to the MessageClassifier -/
  | frame (m : List Byte)
  /-- an orphan span, as step 3 of the scan hands it to the MessageClassifier -/
  | short (b : List Byte)
  /-- a segment byte, as the HeightAssembler hands it to the SevenSegmentDecoder -/
  | seg7 (v : Byte)
  /-- an event record, as an `emit` hands it to the event output stage -/
  | evrec (r : List Byte)
  deriving DecidableEq, Repr

/-- The format of an encoded word. -/
def Code.format : Code → Format
  | .hcw _ => .hcw
  | .frame _ => .frame
  | .short _ => .short
  | .seg7 _ => .seg7
  | .evrec _ => .evrec

/-- Why a word has no row of the opcode table. -/
inductive DecodeError where
  /-- a frame whose first byte is not SYNC (R51) -/
  | notSync
  /-- a frame that does not have `m[1] + LEN_OVERHEAD` bytes (R51) -/
  | wrongLength
  /-- a span that holds a SYNC byte, so no orphan span (R56) -/
  | syncInSpan
  /-- an orphan span that is no short form: the classifier emits nothing for it (R93) -/
  | notShortForm
  /-- a record whose kind is never emitted (R58) -/
  | badKind
  /-- a record whose length is not its kind's (R58, R65) -/
  | badRecordLength
  deriving DecidableEq, Repr

/-! ## The decoder -/

/-- `decode_hcw` of rule R49: total on the 1024 words. -/
def decodeHcw (w : Hcw) : Instr :=
  if hcwOp w = 0b00 then .push (hcwData w)
  else if hcwOp w = 0b01 then (if hcwData w = 0 then .endChunk else .reserved01 (hcwData w))
  else if hcwOp w = 0b10 then (if hcwData w = 0 then .reset else .reserved10 (hcwData w))
  else .reserved11 (hcwData w)

/-- The class of a frame of `t` bytes with this length field, type byte and `rest = m[3..T)` (R52): the first of HEIGHT,
STATUS, UNKNOWN whose test holds. -/
def decodeFrameClass (t : Nat) (len ty : Byte) (rest : List Byte) : Except DecodeError Instr :=
  if H_MIN ≤ t ∧ len = H_LEN ∧ ty = H_TYPE then
    match rest with
    | [p0, p1, p2, p3, m7, m8, trailer] => .ok (.height p0 p1 p2 p3 m7 m8 trailer)
    | _ => .error .wrongLength
  else if S_MIN ≤ t ∧ len = S_LEN ∧ ty = S_TYPE then
    match rest with
    | [value1, value2, m5, trailer] => .ok (.status value1 value2 m5 trailer)
    | _ => .error .wrongLength
  else .ok (.unknown len ty rest)

/-- The row of a frame (R51, R52). -/
def decodeFrame (m : List Byte) : Except DecodeError Instr :=
  match m with
  | sync :: len :: ty :: rest =>
      if sync ≠ SYNC then .error .notSync
      else if m.length ≠ totalLen len then .error .wrongLength
      else decodeFrameClass m.length len ty rest
  | _ => .error .wrongLength

/-- The row of an orphan span (R56, R93). -/
def decodeShort (b : List Byte) : Except DecodeError Instr :=
  if b.contains SYNC then .error .syncInSpan
  else
    match b with
    | b0 :: b1 :: d0 :: d1 :: d2 :: rest =>
        if SF_MIN ≤ rest.length + 5 ∧ b0 = SF_B0 ∧ b1 = SF_B1 then .ok (.shortHeight d0 d1 d2 rest)
        else .error .notShortForm
    | _ => .error .notShortForm

/-- The row of digit `d` (R97). -/
def segRow (d : Fin 10) (dp : Bool) : Instr :=
  match d with
  | 0 => .seg0 dp
  | 1 => .seg1 dp
  | 2 => .seg2 dp
  | 3 => .seg3 dp
  | 4 => .seg4 dp
  | 5 => .seg5 dp
  | 6 => .seg6 dp
  | 7 => .seg7 dp
  | 8 => .seg8 dp
  | 9 => .seg9 dp

/-- The row of a segment byte, total on the 256 bytes: blank first, then SEGTAB, then SEG_INVALID (R95 to R98). -/
def decodeSeg7 (v : Byte) : Instr :=
  if v = BLANK then .segBlank
  else
    match SEGTAB.lookup (segCode v) with
    | some d => segRow d (segPoint v)
    | none => .segInvalid (segPoint v) (segCode v)

/-- The row of an event record: its kind byte decides its row and its length (R58 to R62, R65). The fields' ranges are not
tested here: see Instr.wf, and assumption 9. -/
def decodeEvrec (r : List Byte) : Except DecodeError Instr :=
  match r with
  | [] => .error .badRecordLength
  | kind :: body =>
      if kind = KIND_HEIGHT then
        match body with
        | [hi, lo, scale] => .ok (.evHeight (halfOfBytes hi lo) scale)
        | _ => .error .badRecordLength
      else if kind = KIND_STATUS then
        match body with
        | [value1, value2] => .ok (.evStatus value1 value2)
        | _ => .error .badRecordLength
      else if kind = KIND_UNKNOWN then
        match body with
        | len :: ty :: n :: payload =>
            if payload.length = n.toNat ∧ n.toNat ≤ PAYLOAD_MAX then .ok (.evUnknown len ty payload)
            else .error .badRecordLength
        | _ => .error .badRecordLength
      else if kind = KIND_DIAG then
        match body with
        | [reason, hi, lo] => .ok (.evDiag reason (halfOfBytes hi lo))
        | _ => .error .badRecordLength
      else .error .badKind

/-- The row of an encoded word, or the name of the reason it has none. -/
def decode : Code → Except DecodeError Instr
  | .hcw w => .ok (decodeHcw w)
  | .frame m => decodeFrame m
  | .short b => decodeShort b
  | .seg7 v => .ok (decodeSeg7 v)
  | .evrec r => decodeEvrec r

/-! ## The encoder -/

/-- HeightEvent record (R59). -/
def recordHeight (mant : Half) (scale : Byte) : List Byte := [KIND_HEIGHT, highByte mant, lowByte mant, scale]

/-- StatusEvent record (R60). -/
def recordStatus (value1 value2 : Byte) : List Byte := [KIND_STATUS, value1, value2]

/-- UnknownMessageEvent record, `n = |payload|` (R61). -/
def recordUnknown (len ty : Byte) (payload : List Byte) : List Byte :=
  KIND_UNKNOWN :: len :: ty :: BitVec.ofNat 8 payload.length :: payload

/-- DiagnosticEvent record (R62). -/
def recordDiag (reason : Byte) (count : Half) : List Byte := [KIND_DIAG, reason, highByte count, lowByte count]

/-- The word that stands for an instruction, in the row's format. -/
def encode : Instr → Code
  | .push b => .hcw (hcwWord 0b00 b)
  | .endChunk => .hcw (hcwWord 0b01 0)
  | .reset => .hcw (hcwWord 0b10 0)
  | .reserved01 data => .hcw (hcwWord 0b01 data)
  | .reserved10 data => .hcw (hcwWord 0b10 data)
  | .reserved11 data => .hcw (hcwWord 0b11 data)
  | .height p0 p1 p2 p3 m7 m8 trailer => .frame [SYNC, H_LEN, H_TYPE, p0, p1, p2, p3, m7, m8, trailer]
  | .status value1 value2 m5 trailer => .frame [SYNC, S_LEN, S_TYPE, value1, value2, m5, trailer]
  | .unknown len ty rest => .frame (SYNC :: len :: ty :: rest)
  | .shortHeight d0 d1 d2 rest => .short (SF_B0 :: SF_B1 :: d0 :: d1 :: d2 :: rest)
  | .segBlank => .seg7 BLANK
  | .seg0 dp => .seg7 (segByte dp (SEGCODE 0))
  | .seg1 dp => .seg7 (segByte dp (SEGCODE 1))
  | .seg2 dp => .seg7 (segByte dp (SEGCODE 2))
  | .seg3 dp => .seg7 (segByte dp (SEGCODE 3))
  | .seg4 dp => .seg7 (segByte dp (SEGCODE 4))
  | .seg5 dp => .seg7 (segByte dp (SEGCODE 5))
  | .seg6 dp => .seg7 (segByte dp (SEGCODE 6))
  | .seg7 dp => .seg7 (segByte dp (SEGCODE 7))
  | .seg8 dp => .seg7 (segByte dp (SEGCODE 8))
  | .seg9 dp => .seg7 (segByte dp (SEGCODE 9))
  | .segInvalid dp seg => .seg7 (segByte dp seg)
  | .evHeight mant scale => .evrec (recordHeight mant scale)
  | .evStatus value1 value2 => .evrec (recordStatus value1 value2)
  | .evUnknown len ty payload => .evrec (recordUnknown len ty payload)
  | .evDiag reason count => .evrec (recordDiag reason count)

/-! ## The opcode table's numbering -/

/-- Byte `k` of `w`, counted from its least significant byte. -/
def byteAt (w k : Nat) : Byte := BitVec.ofNat 8 (w / 256 ^ k)

/-- The frame whose first three bytes are the 24-bit word (`m[0]` in bits 23:16, R52), the bytes above them zero. -/
def frameOfTableWord (w : Nat) : List Byte :=
  [byteAt w 2, byteAt w 1, byteAt w 0] ++ List.replicate (totalLen (byteAt w 1) - 3) 0

/-- The span whose first two bytes are the 16-bit word (`b[0]` in bits 15:8, R56), the bytes above them zero, SF_MIN in all. -/
def spanOfTableWord (w : Nat) : List Byte := [byteAt w 1, byteAt w 0] ++ List.replicate (SF_MIN - 2) 0

/-- The record of this kind whose other bytes are zero: 4 bytes, and 3 for a status record (R58). -/
def recordOfTableWord (kind : Byte) : List Byte :=
  kind :: List.replicate (if kind = KIND_STATUS then 2 else 3) 0

/-- The encoded word that `nbits` bits numbered as the opcode table numbers them stand for. The table's 10-bit HCW rows and
16-bit SHORT row differ in bits 15:10, which an HCW has zero; of the 8-bit rows the EVREC kinds 01 to 04 (mask 0xFF) are taken
before the SEG7 bytes (assumption 10). -/
def codeOfTableWord (nbits w : Nat) : Code :=
  if nbits ≤ 8 then (if 1 ≤ w ∧ w ≤ 4 then .evrec (recordOfTableWord (byteAt w 0)) else .seg7 (byteAt w 0))
  else if nbits ≤ 16 then (if w < 1024 then .hcw (BitVec.ofNat 10 w) else .short (spanOfTableWord w))
  else .frame (frameOfTableWord w)

/-- The instruction this decoder reads from the table word `w` of `nbits` bits. -/
def decodeTableWord (nbits w : Nat) : Option Instr := (decode (codeOfTableWord nbits w)).toOption

end Sys2Proof
end

