-- ==== Sys2Proof/Machine/State.lean ====
section
/-! DEFINITION. The state of the FSMM as plain data, its value after reset, the value types of rules R26 to R29, and the
reasons a step can stop. -/

namespace Sys2Proof.Machine

/-! ## Value types -/

/-- A DigitReading `(digit, dp)`; `none` is ABSENT (R26). -/
structure DigitReading where
  digit : Option (Fin 10)
  dp : Bool
  deriving DecidableEq, Repr

/-- A Height: the exact rational `mant / 10^scale`, in centimetres (R27). -/
structure Height where
  mant : Nat
  scale : Nat
  deriving DecidableEq, Repr

/-- A HeightReading: a Height or INVALID (R27). -/
inductive HeightReading where
  | valid (h : Height)
  | invalid
  deriving DecidableEq, Repr

/-- The reason of a DiagnosticEvent (R29, R62). -/
inductive DiagReason where
  | noSync
  | orphan
  deriving DecidableEq, Repr

/-- An output event (R29). -/
inductive Event where
  | height (value : Height)
  | status (value1 value2 : Byte)
  | unknown (lengthField typeByte : Byte) (payload : List Byte)
  | diag (reason : DiagReason) (count : Nat)
  deriving DecidableEq, Repr

/-- The scanner phase, a function of BUF and never stored (R21). -/
inductive Phase where
  | awaitingSync
  | awaitingLength
  | awaitingBody
  deriving DecidableEq, Repr

/-- One byte on the event port with its `evt_last` (R63). -/
structure EvtByte where
  data : Byte
  last : Bool
  deriving DecidableEq, Repr

/-- The levels of the two input lines that are not the command port, during one step: `rst` and `evt_ready` (R63). -/
structure Lines where
  rst : Bool
  evtReady : Bool
  deriving DecidableEq, Repr

/-- The machine's only store, BUF: its bytes from the head, the oldest first (R17, R33). -/
abbrev Memory := List Byte

/-- BUF's form: at most BUF_CAP bytes (R17). Equal sequences are equal lists, so no further canonical form is needed. -/
def Memory.wf (cap : Nat) (m : Memory) : Bool := decide (m.length ≤ cap)

/-! ## Stops -/

/-- Why a step stops with a fault. Both are safe, and neither is reached: every read is guarded (R34) and the scan ends
within its bound (R84). -/
inductive Fault where
  /-- Raised by a read of BUF, of a frame or of a span outside its bytes. R34: "If one were ever reached, the model must
  fault, not return a value". Safe. -/
  | readOutOfRange
  /-- Raised by SCAN if it ran more than `floor(|BUF| / 3) + 1` iterations, which R84 excludes. Safe. -/
  | scanOverrun
  deriving DecidableEq, Repr

/-- Why a step is refused. -/
inductive Refusal where
  /-- Raised by exec for an instruction that has no meaning yet. Safe. -/
  | notModelled (mnemonic : String)
  /-- Raised by step for a word handed to an inner unit that no unit of the FSMM can produce: a frame of the wrong length or
  without SYNC, a span with a SYNC byte, a record of no kind. Safe: no host command leads to it. -/
  | malformedWord (reason : DecodeError)
  deriving DecidableEq, Repr

/-! ## The state -/

/-- The state. `buf` is the architectural state (R16), `evtStage` the event output stage of the port level (R25, R64),
`params` the configuration (assumption 1). `input`, `lines` and `linesAfter` are what the outside world does next, `evtTaken` what it has
taken, and `digitOut` the model's own record of the SevenSegmentDecoder's results for words handed to it alone
(assumptions 2 to 5). -/
structure State where
  /-- the implementation parameters: read by every unit, written by none (R7 to R9, R16) -/
  params : Params
  /-- BUF (R17) -/
  buf : Memory
  /-- the event output stage: bytes an END has produced and the consumer has not taken, next byte first (R25, R64) -/
  evtStage : List EvtByte
  /-- the words not yet accepted, oldest first: the host's commands (R63, R72); `cmd_valid` is 1 exactly while it is not empty
  (assumption 20) -/
  input : List Code
  /-- the levels of `rst` and `evt_ready` during the coming steps, one entry a step -/
  lines : List Lines
  /-- the levels of `rst` and `evt_ready` for good, once `lines` has ended: `evt_ready = 0` here is a consumer that never takes
  another byte (R138) -/
  linesAfter : Lines
  /-- the bytes the consumer has taken, oldest first: the observation of R72 -/
  evtTaken : List EvtByte
  /-- the DigitReadings of the SEG7 words handed to the decoder alone, oldest first -/
  digitOut : List DigitReading
  deriving DecidableEq, Repr

/-- The state after a hardware reset, before any input (R30, R125), with the default parameters (R7 to R9). -/
def State.reset : State :=
  { params := Params.default, buf := [], evtStage := [], input := [], lines := [],
    linesAfter := { rst := false, evtReady := true }, evtTaken := [], digitOut := [] }

end Sys2Proof.Machine
end

