-- ==== Sys2Proof/Machine/Flags.lean ====
section
/-! DEFINITION. The flag-like values of the FSMM. It has no condition codes (R22): what there is are the decimal-point flag of a
segment byte, the `full` output, and the `evt_last` mark of a record's last byte. -/

namespace Sys2Proof.Machine

open Config

/-- `hasDecimalPoint` of a byte other than the blank one is its bit 7; the blank byte has no point (R95, R96). -/
def dpFlag (v : Byte) : Bool := if v = BLANK then false else segPoint v

/-- The status output `full`: BUF holds BUF_CAP bytes (R23). -/
def State.full (s : State) : Bool := decide (s.buf.length = s.params.bufCap)

/-- A record's bytes as the event port sends them: in order, `evt_last` on the last byte only (R64). -/
def wireBytes : List Byte → List EvtByte
  | [] => []
  | [b] => [{ data := b, last := true }]
  | b :: c :: r => { data := b, last := false } :: wireBytes (c :: r)

end Sys2Proof.Machine
end

