-- ==== Sys2Proof/Machine/Operands.lean ====
section
/-! DEFINITION. The operand forms: reads of bytes and spans by offset from the head (R33, R34), slices (R13), and segment bytes
through DECODE7 (R95 to R98). -/

namespace Sys2Proof.Machine

open Config

/-- `MemRead(i, n)`: the bytes `i..i+n` of BUF, a frame or a span; it faults outside them (R14, R34). -/
def readSpan (m : List Byte) (i n : Nat) : Except Fault (List Byte) :=
  if i + n ≤ m.length then .ok ((m.drop i).take n) else .error .readOutOfRange

/-- The byte at offset `i`; it faults outside the sequence (R13, R34). -/
def readByte (m : List Byte) (i : Nat) : Except Fault Byte :=
  match m[i]? with
  | some v => .ok v
  | none => .error .readOutOfRange

/-- `s[a..b)`: empty when `b <= a` (R13); it faults when `b` lies past the end (R34). -/
def readSlice (m : List Byte) (a b : Nat) : Except Fault (List Byte) :=
  if b ≤ a then .ok [] else readSpan m a (b - a)

/-- `first(s, v)`: the least offset of `v` (R13). -/
def firstOffset (m : List Byte) (v : Byte) : Option Nat :=
  match m with
  | [] => none
  | b :: m => if b = v then some 0 else (firstOffset m v).map (· + 1)

/-- The digit of a segment code, ABSENT when SEGTAB does not list it (R97, R98). -/
def segDigit (seg : SegCode) : Option (Fin 10) := SEGTAB.lookup seg

/-- `DECODE7(v)` (R95 to R98). -/
def decode7 (v : Byte) : DigitReading :=
  if v = BLANK then { digit := none, dp := false }
  else { digit := segDigit (segCode v), dp := dpFlag v }

end Sys2Proof.Machine
end

