-- ==== Sys2Proof/Machine/Ops.lean ====
section
/-! DEFINITION. The named operations over BUF and the ports: the primitives of rule R14, event emission, the hardware reset, and
the outputs that are functions of the state. There is no operation that takes an exception, and none that returns from one,
for the FSMM has neither (R110): the one thing that breaks into a command is `rst`, `hardwareReset` below (R125, R127). -/

namespace Sys2Proof.Machine

open Config

/-! ## The three writes of BUF (R14, R20, R35) -/

/-- `Append(v)` at the tail, by PUSH: only while there is room, else the byte is lost (R67, R68). -/
def Memory.append (cap : Nat) (m : Memory) (v : Byte) : Memory := if m.length < cap then m ++ [v] else m

/-- `DropHead(n)` (R14). -/
def Memory.dropHead (m : Memory) (n : Nat) : Memory := m.drop n

/-- `Clear()` (R14). -/
def Memory.clear : Memory := []

/-! ## Event records (R58 to R62) -/

/-- The reason code of a diagnostic record (R62). -/
def DiagReason.code : DiagReason → Byte
  | .noSync => REASON_NO_SYNC
  | .orphan => REASON_ORPHAN

/-- The EVREC row that encodes an event (R59 to R62). -/
def Event.row : Event → Instr
  | .height h => .evHeight (BitVec.ofNat 16 h.mant) (BitVec.ofNat 8 h.scale)
  | .status value1 value2 => .evStatus value1 value2
  | .unknown len ty payload => .evUnknown len ty payload
  | .diag reason count => .evDiag reason.code (BitVec.ofNat 16 count)

/-- The record bytes of an event (R59 to R62). -/
def Event.record : Event → List Byte
  | .height h => recordHeight (BitVec.ofNat 16 h.mant) (BitVec.ofNat 8 h.scale)
  | .status value1 value2 => recordStatus value1 value2
  | .unknown len ty payload => recordUnknown len ty payload
  | .diag reason count => recordDiag reason.code (BitVec.ofNat 16 count)

/-- The bytes of a sequence of events on the event port, in emission order (R64, R119). -/
def wireEvents (es : List Event) : List EvtByte := es.flatMap fun e => wireBytes e.record

/-- Two Heights denote the same rational (R27). -/
def Height.sameValue (h k : Height) : Prop := h.mant * 10 ^ k.scale = k.mant * 10 ^ h.scale

/-! ## State updates -/

/-- BUF replaced, all else kept. -/
def State.setBuf (s : State) (m : Memory) : State := { s with buf := m }

/-- Bytes put behind those in the event output stage (R25). -/
def State.stageBytes (s : State) (bs : List EvtByte) : State := { s with evtStage := s.evtStage ++ bs }

/-- One record put into the event output stage. -/
def State.emitRecord (s : State) (r : List Byte) : State := s.stageBytes (wireBytes r)

/-- `emit` of each event in order (R14, R119). -/
def State.emit (s : State) (es : List Event) : State := s.stageBytes (wireEvents es)

/-- A DigitReading given by the decoder to a word handed to it alone (R26; assumption 3). -/
def State.outDigit (s : State) (r : DigitReading) : State := { s with digitOut := s.digitOut ++ [r] }

/-- PUSH's effect on BUF (R67, R68). -/
def State.pushByte (s : State) (b : Byte) : State := s.setBuf (s.buf.append s.params.bufCap b)

/-- RESET's effect: `Clear()`, and nothing else changes (R70). -/
def State.clearBuf (s : State) : State := s.setBuf Memory.clear

/-- What `rst` does: any command in progress is abandoned, the output stage emptied, BUF cleared (R125). The bytes the
consumer has taken stay taken (R127), and what the outside world holds ready is its own (assumption 6). -/
def State.hardwareReset (s : State) : State := { s with buf := Memory.clear, evtStage := [] }

/-- The input's next word accepted. -/
def State.dropInput (s : State) : State := { s with input := s.input.tail }

/-- One step's line levels used up. -/
def State.dropLines (s : State) : State := { s with lines := s.lines.tail }

/-- One byte of the output stage taken by the consumer (R64). -/
def State.takeByte (s : State) : State :=
  { s with evtStage := s.evtStage.tail, evtTaken := s.evtTaken ++ s.evtStage.take 1 }

/-! ## Line levels and outputs -/

/-- The line levels during the next step: the schedule's first entry, and after its end the levels that stay for good. -/
def State.linesNow (s : State) : Lines := s.lines.headD s.linesAfter

/-- `phase(BUF)` (R21). -/
def phase (m : Memory) : Phase :=
  match m with
  | [b] => if b = SYNC then .awaitingLength else .awaitingSync
  | b :: _ :: _ => if b = SYNC then .awaitingBody else .awaitingSync
  | [] => .awaitingSync

/-- The output `buf_level` (R23). -/
def State.bufLevel (s : State) : Half := BitVec.ofNat 16 s.buf.length

/-- The output `cmd_ready`: 1 only when no command is in progress, 0 while `rst` is 1 (R64, R125). -/
def State.cmdReady (s : State) : Bool := !s.linesNow.rst && s.evtStage.isEmpty

/-- The output `evt_valid` (R63), 0 while `rst` is 1 (R125). -/
def State.evtValid (s : State) : Bool := !s.linesNow.rst && !s.evtStage.isEmpty

/-- The outputs `evt_data` and `evt_last`, where `evt_valid` is 1; no value is given otherwise (R63). -/
def State.evtOut (s : State) : Option EvtByte := if s.evtValid then s.evtStage.head? else none

end Sys2Proof.Machine
end

