-- ==== Sys2Proof/Machine/HeightAssembler.lean ====
section
/-! DEFINITION. The HeightAssembler: Variant A (R100 to R104) and Variant B (R105 to R107), two rules that are not unified
(R108). -/

namespace Sys2Proof.Machine

open Config

/-- A character of Variant A's string: a digit or a point (R100). -/
inductive Glyph where
  | digit (d : Fin 10)
  | point
  deriving DecidableEq, Repr

/-- What one decoded byte appends to the string: its digit, if any, then a point if it is flagged (R100, R102). -/
def glyphsOf (r : DigitReading) : List Glyph :=
  (match r.digit with
    | some d => [Glyph.digit d]
    | none => []) ++ (if r.dp then [Glyph.point] else [])

/-- Variant A's string for a payload, byte by byte in order (R100). -/
def displayString (payload : List Byte) : List Glyph := payload.flatMap fun v => glyphsOf (decode7 v)

/-- The digits of a string, in order. -/
def digitsOf : List Glyph → List (Fin 10)
  | [] => []
  | .digit d :: s => d :: digitsOf s
  | .point :: s => digitsOf s

/-- `points(s)` (R100). -/
def pointsIn : List Glyph → Nat
  | [] => 0
  | .digit _ :: s => pointsIn s
  | .point :: s => pointsIn s + 1

/-- The string before its first point. -/
def beforePoint : List Glyph → List Glyph
  | [] => []
  | .digit d :: s => .digit d :: beforePoint s
  | .point :: _ => []

/-- The string after its first point, empty when it has none. -/
def afterPoint : List Glyph → List Glyph
  | [] => []
  | .digit _ :: s => afterPoint s
  | .point :: s => s

/-- PREFIX: the string cut before its second point (R103). -/
def cutSecondPoint : List Glyph → List Glyph
  | [] => []
  | .digit d :: s => .digit d :: cutSecondPoint s
  | .point :: s => .point :: beforePoint s

/-- The decimal value of a digit string, most significant digit first (R104). -/
def decimal (ds : List (Fin 10)) : Nat := ds.foldl (fun n d => 10 * n + d.val) 0

/-- `PARSE(s)`, for a string with at most one point (R104). -/
def parse (s : List Glyph) : HeightReading :=
  if digitsOf s = [] then .invalid
  else .valid { mant := decimal (digitsOf s), scale := (digitsOf (afterPoint s)).length }

/-- `ASSEMBLE_A(p0, p1, p2, p3)` (R100, R101, R103). -/
def assembleA (rule : MultiPointRule) (p0 p1 p2 p3 : Byte) : HeightReading :=
  if digitsOf (displayString [p0, p1, p2, p3]) = [] then .invalid
  else if 2 ≤ pointsIn (displayString [p0, p1, p2, p3]) then
    match rule with
    | .invalid => .invalid
    | .prefixCut => parse (cutSecondPoint (displayString [p0, p1, p2, p3]))
  else parse (displayString [p0, p1, p2, p3])

/-- `ASSEMBLE_B(q0, q1, q2)` (R105, R106, R107). -/
def assembleB (q0 q1 q2 : Byte) : HeightReading :=
  match (decode7 q0).digit, (decode7 q1).digit, (decode7 q2).digit with
  | some d0, some d1, some d2 =>
      .valid
        { mant := 100 * d0.val + 10 * d1.val + d2.val
          scale := if (decode7 q0).dp || (decode7 q1).dp || (decode7 q2).dp then 1 else 0 }
  | _, _, _ => .invalid

end Sys2Proof.Machine
end

