-- ==== Sys2Proof/Machine/MessageClassifier.lean ====
section
/-! DEFINITION. The MessageClassifier: CLASSIFY_FRAME (R88 to R92) and CLASSIFY_ORPHAN (R93). It reads bytes and emits events; it
writes no state. The branches are shared with the meanings of the FRAME and SHORT rows. -/

namespace Sys2Proof.Machine

open Config

/-- A valid reading is one HeightEvent, an INVALID one no event (R27, R88, R115). -/
def heightEvents : HeightReading → List Event
  | .valid h => [.height h]
  | .invalid => []

/-- Height branch, on the four bytes of its payload (R88). -/
def heightBranch (p : Params) (p0 p1 p2 p3 : Byte) : List Event := heightEvents (assembleA p.multiPoint p0 p1 p2 p3)

/-- Height branch, on the slice `m[H_PAY_LO..H_PAY_HI)`: Variant A takes exactly four bytes, and a slice of any other length would
be a read outside it (R34, R88). -/
def heightPayload (p : Params) (payload : List Byte) : Except Fault (List Event) :=
  match payload with
  | [p0, p1, p2, p3] => .ok (heightBranch p p0 p1 p2 p3)
  | _ => .error .readOutOfRange

/-- Status branch, on `m[3]` and `m[4]` (R89). -/
def statusBranch (value1 value2 : Byte) : List Event := [.status value1 value2]

/-- Unknown branch, on `m[1]`, `m[2]` and the payload slice (R90). -/
def unknownBranch (len ty : Byte) (payload : List Byte) : List Event := [.unknown len ty payload]

/-- Short-form branch, on the three bytes of its payload (R93). -/
def shortBranch (d0 d1 d2 : Byte) : List Event := heightEvents (assembleB d0 d1 d2)

/-- Short-form branch, on the slice `b[SF_PAY_LO..SF_PAY_HI)`: Variant B takes exactly three bytes (R34, R93). -/
def shortPayload (payload : List Byte) : Except Fault (List Event) :=
  match payload with
  | [d0, d1, d2] => .ok (shortBranch d0 d1 d2)
  | _ => .error .readOutOfRange

/-- `CLASSIFY_FRAME(m)` (R88, R89, R90): the branches in the source's order, each with its length test. -/
def classifyFrame (p : Params) (m : List Byte) : Except Fault (List Event) :=
  if H_MIN ≤ m.length ∧ m[1]? = some H_LEN ∧ m[2]? = some H_TYPE then do
    let payload ← readSlice m H_PAY_LO H_PAY_HI
    heightPayload p payload
  else if S_MIN ≤ m.length ∧ m[1]? = some S_LEN ∧ m[2]? = some S_TYPE then do
    let value1 ← readByte m 3
    let value2 ← readByte m 4
    .ok (statusBranch value1 value2)
  else do
    let len ← readByte m 1
    let ty ← readByte m 2
    let payload ← readSlice m 3 (max 3 (m.length - 1))
    .ok (unknownBranch len ty payload)

/-- `CLASSIFY_ORPHAN(b)` (R93). -/
def classifyOrphan (b : List Byte) : Except Fault (List Event) :=
  if SF_MIN ≤ b.length ∧ b[0]? = some SF_B0 ∧ b[1]? = some SF_B1 then do
    let payload ← readSlice b SF_PAY_LO SF_PAY_HI
    shortPayload payload
  else .ok []

end Sys2Proof.Machine
end

