-- ==== Sys2Proof/Machine/FrameScanner.lean ====
section
/-! DEFINITION. The FrameScanner: SCAN of rule R75, its eight steps as in rules R76 to R83, with the diagnostics of rule R117. -/

namespace Sys2Proof.Machine

open Config

/-- The diagnostic at a discard point, emitted only when DIAG_ENABLE (R117). -/
def diagEvents (p : Params) (reason : DiagReason) (count : Nat) : List Event :=
  if p.diagEnable then [.diag reason count] else []

/-- What one iteration of SCAN leaves: BUF, the events emitted, and whether SCAN goes round again (step 8) or returns. -/
structure ScanStep where
  buf : Memory
  events : List Event
  again : Bool
  deriving DecidableEq, Repr

/-- Step 3: the orphan span before the marker at offset `k` is offered to the classifier, then dropped (R78). -/
def orphanStep (p : Params) (m : Memory) (k : Nat) : Except Fault (Memory × List Event) :=
  if k = 0 then .ok (m, [])
  else do
    let b ← readSpan m 0 k
    let es ← classifyOrphan b
    .ok (m.dropHead k, es ++ diagEvents p .orphan k)

/-- Steps 4 to 7, on a BUF whose head is the marker (R79 to R82). -/
def frameStep (p : Params) (m : Memory) : Except Fault ScanStep :=
  if m.length < MIN_HDR then .ok { buf := m, events := [], again := false }
  else do
    let len ← readByte m 1
    if m.length < totalLen len then .ok { buf := m, events := [], again := false }
    else do
      let frame ← readSpan m 0 (totalLen len)
      let es ← classifyFrame p frame
      .ok { buf := m.dropHead (totalLen len), events := es, again := true }

/-- One iteration of SCAN, steps 1 to 7 (R75 to R82). -/
def scanIteration (p : Params) (m : Memory) : Except Fault ScanStep :=
  if m.length < MIN_SCAN then .ok { buf := m, events := [], again := false }
  else
    match firstOffset m SYNC with
    | none => .ok { buf := Memory.clear, events := diagEvents p .noSync m.length, again := false }
    | some k => do
        let (m', es) ← orphanStep p m k
        let r ← frameStep p m'
        .ok { r with events := es ++ r.events }

/-- SCAN with a bound on its iterations, step 8 going round again (R75, R83). -/
def scanLoop (p : Params) : Nat → Memory → Except Fault (Memory × List Event)
  | 0, _ => .error .scanOverrun
  | n + 1, m => do
      let r ← scanIteration p m
      if r.again then do
        let (m', es) ← scanLoop p n r.buf
        .ok (m', r.events ++ es)
      else .ok (r.buf, r.events)

/-- `SCAN()`: BUF afterwards and the events in emission order. The bound is that of rule R84,
`floor(|BUF| / 3) + 1` iterations, for every frame has at least LEN_OVERHEAD bytes; SCAN never needs more. -/
def scan (p : Params) (m : Memory) : Except Fault (Memory × List Event) := scanLoop p (m.length / LEN_OVERHEAD + 1) m

end Sys2Proof.Machine
end

