-- ==== Sys2Proof/Machine/EventRecord.lean ====
section
/-! DEFINITION. The meanings of the EVREC rows: the record put into the event output stage, from which the consumer takes it byte
by byte (R58 to R64). -/

namespace Sys2Proof.Machine

/-- EV_HEIGHT: the 4-byte record (R59). -/
def execEvHeight (mant : Half) (scale : Byte) (s : State) : Host.Outcome State Fault Refusal :=
  .next (s.emitRecord (recordHeight mant scale))

/-- EV_STATUS: the 3-byte record (R60). -/
def execEvStatus (value1 value2 : Byte) (s : State) : Host.Outcome State Fault Refusal :=
  .next (s.emitRecord (recordStatus value1 value2))

/-- EV_UNKNOWN: the record of `4 + n` bytes (R61). -/
def execEvUnknown (len ty : Byte) (payload : List Byte) (s : State) : Host.Outcome State Fault Refusal :=
  .next (s.emitRecord (recordUnknown len ty payload))

/-- EV_DIAG: the 4-byte record, in a build with DIAG_ENABLE; a build without it never emits one (R8, R58, R62). -/
def execEvDiag (reason : Byte) (count : Half) (s : State) : Host.Outcome State Fault Refusal :=
  if s.params.diagEnable then .next (s.emitRecord (recordDiag reason count)) else .next s

end Sys2Proof.Machine
end

