-- ==== Sys2Proof/Machine/FrameClass.lean ====
section
/-! DEFINITION. The meanings of the FRAME rows and of the SHORT row: what the MessageClassifier emits for a frame or a short form
handed to it (spec/42_message_classifier.md). The classifier writes nothing; END reaches the same branches through SCAN. -/

namespace Sys2Proof.Machine

/-- HEIGHT: one HeightEvent by Variant A, or nothing when the reading is INVALID; `m[7..9]` are not read (R88, R92, R115). -/
def execHeight (p0 p1 p2 p3 _m7 _m8 _trailer : Byte) (s : State) : Host.Outcome State Fault Refusal :=
  .next (s.emit (heightBranch s.params p0 p1 p2 p3))

/-- STATUS: the two bytes verbatim; `m[5]` and the trailer are not read (R89, R92). -/
def execStatus (value1 value2 _m5 _trailer : Byte) (s : State) : Host.Outcome State Fault Refusal :=
  .next (s.emit (statusBranch value1 value2))

/-- UNKNOWN: the payload is `m[3 .. max(3, T-1))`, all of `m[3..T)` but the trailer (R90). -/
def execUnknown (len ty : Byte) (rest : List Byte) (s : State) : Host.Outcome State Fault Refusal :=
  .next (s.emit (unknownBranch len ty rest.dropLast))

/-- SHORT_HEIGHT: one HeightEvent by Variant B, or nothing when the reading is INVALID; `b[5..)` is not read (R93, R115). -/
def execShortHeight (d0 d1 d2 : Byte) (_rest : List Byte) (s : State) : Host.Outcome State Fault Refusal :=
  .next (s.emit (shortBranch d0 d1 d2))

end Sys2Proof.Machine
end

