-- ==== Sys2Proof/Machine/HostCommand.lean ====
section
/-! DEFINITION. The meanings of the HCW rows: PUSH, END, RESET and the reserved words (spec/40_byte_assembler.md). Each is one
atomic step (R40, R72). -/

namespace Sys2Proof.Machine

/-- PUSH `b`: appended if there is room, else lost; no scan, no event (R67, R68). -/
def execPush (b : Byte) (s : State) : Host.Outcome State Fault Refusal := .next (s.pushByte b)

/-- END: SCAN runs to completion, and its events are END's output, in order (R69). -/
def execEndChunk (s : State) : Host.Outcome State Fault Refusal :=
  match scan s.params s.buf with
  | .ok r => .next ((s.setBuf r.1).emit r.2)
  | .error f => .fault f

/-- RESET: `Clear()`, no event (R70). -/
def execReset (s : State) : Host.Outcome State Fault Refusal := .next s.clearBuf

/-- RESERVED_01: accepted, completes with no effect (R71; assumption 8). -/
def execReserved01 (_data : Byte) (s : State) : Host.Outcome State Fault Refusal := .next s

/-- RESERVED_10: accepted, completes with no effect (R71; assumption 8). -/
def execReserved10 (_data : Byte) (s : State) : Host.Outcome State Fault Refusal := .next s

/-- RESERVED_11: accepted, completes with no effect (R71; assumption 8). -/
def execReserved11 (_data : Byte) (s : State) : Host.Outcome State Fault Refusal := .next s

end Sys2Proof.Machine
end

