-- ==== Sys2Proof/Machine/Segment.lean ====
section
/-! DEFINITION. The meanings of the SEG7 rows: the DigitReading DECODE7 gives, row by row (spec/43_seven_segment.md). DECODE7 is a
pure function (R95), so the reading is the whole effect; `digitOut` records it (assumption 3). -/

namespace Sys2Proof.Machine

/-- SEG_BLANK: `(ABSENT, false)` (R95). -/
def execSegBlank (s : State) : Host.Outcome State Fault Refusal := .next (s.outDigit { digit := none, dp := false })

/-- SEG_0: `(0, dp)` (R96, R97). -/
def execSeg0 (dp : Bool) (s : State) : Host.Outcome State Fault Refusal := .next (s.outDigit { digit := some 0, dp := dp })

/-- SEG_1: `(1, dp)` (R96, R97). -/
def execSeg1 (dp : Bool) (s : State) : Host.Outcome State Fault Refusal := .next (s.outDigit { digit := some 1, dp := dp })

/-- SEG_2: `(2, dp)` (R96, R97). -/
def execSeg2 (dp : Bool) (s : State) : Host.Outcome State Fault Refusal := .next (s.outDigit { digit := some 2, dp := dp })

/-- SEG_3: `(3, dp)` (R96, R97). -/
def execSeg3 (dp : Bool) (s : State) : Host.Outcome State Fault Refusal := .next (s.outDigit { digit := some 3, dp := dp })

/-- SEG_4: `(4, dp)` (R96, R97). -/
def execSeg4 (dp : Bool) (s : State) : Host.Outcome State Fault Refusal := .next (s.outDigit { digit := some 4, dp := dp })

/-- SEG_5: `(5, dp)` (R96, R97). -/
def execSeg5 (dp : Bool) (s : State) : Host.Outcome State Fault Refusal := .next (s.outDigit { digit := some 5, dp := dp })

/-- SEG_6: `(6, dp)` (R96, R97). -/
def execSeg6 (dp : Bool) (s : State) : Host.Outcome State Fault Refusal := .next (s.outDigit { digit := some 6, dp := dp })

/-- SEG_7: `(7, dp)` (R96, R97). -/
def execSeg7 (dp : Bool) (s : State) : Host.Outcome State Fault Refusal := .next (s.outDigit { digit := some 7, dp := dp })

/-- SEG_8: `(8, dp)` (R96, R97). -/
def execSeg8 (dp : Bool) (s : State) : Host.Outcome State Fault Refusal := .next (s.outDigit { digit := some 8, dp := dp })

/-- SEG_9: `(9, dp)` (R96, R97). -/
def execSeg9 (dp : Bool) (s : State) : Host.Outcome State Fault Refusal := .next (s.outDigit { digit := some 9, dp := dp })

/-- SEG_INVALID: `(ABSENT, dp)`, the sentinel of the blank byte; the code is not reported (R96, R98). -/
def execSegInvalid (dp : Bool) (_seg : SegCode) (s : State) : Host.Outcome State Fault Refusal :=
  .next (s.outDigit { digit := none, dp := dp })

end Sys2Proof.Machine
end

