-- ==== Sys2Proof/Machine/Dispatch.lean ====
section
/-! DEFINITION. The dispatch: one arm per constructor of Instr, each one direct call of its meaning. -/

namespace Sys2Proof.Machine

def exec (i : Instr) (s : State) : Host.Outcome State Fault Refusal :=
  match i with
  | .push b => Sys2Proof.Machine.execPush b s
  | .endChunk => Sys2Proof.Machine.execEndChunk s
  | .reset => Sys2Proof.Machine.execReset s
  | .reserved01 data => Sys2Proof.Machine.execReserved01 data s
  | .reserved10 data => Sys2Proof.Machine.execReserved10 data s
  | .reserved11 data => Sys2Proof.Machine.execReserved11 data s
  | .height p0 p1 p2 p3 m7 m8 trailer => Sys2Proof.Machine.execHeight p0 p1 p2 p3 m7 m8 trailer s
  | .status value1 value2 m5 trailer => Sys2Proof.Machine.execStatus value1 value2 m5 trailer s
  | .unknown len ty rest => Sys2Proof.Machine.execUnknown len ty rest s
  | .shortHeight d0 d1 d2 rest => Sys2Proof.Machine.execShortHeight d0 d1 d2 rest s
  | .segBlank => Sys2Proof.Machine.execSegBlank s
  | .seg0 dp => Sys2Proof.Machine.execSeg0 dp s
  | .seg1 dp => Sys2Proof.Machine.execSeg1 dp s
  | .seg2 dp => Sys2Proof.Machine.execSeg2 dp s
  | .seg3 dp => Sys2Proof.Machine.execSeg3 dp s
  | .seg4 dp => Sys2Proof.Machine.execSeg4 dp s
  | .seg5 dp => Sys2Proof.Machine.execSeg5 dp s
  | .seg6 dp => Sys2Proof.Machine.execSeg6 dp s
  | .seg7 dp => Sys2Proof.Machine.execSeg7 dp s
  | .seg8 dp => Sys2Proof.Machine.execSeg8 dp s
  | .seg9 dp => Sys2Proof.Machine.execSeg9 dp s
  | .segInvalid dp seg => Sys2Proof.Machine.execSegInvalid dp seg s
  | .evHeight mant scale => Sys2Proof.Machine.execEvHeight mant scale s
  | .evStatus value1 value2 => Sys2Proof.Machine.execEvStatus value1 value2 s
  | .evUnknown len ty payload => Sys2Proof.Machine.execEvUnknown len ty payload s
  | .evDiag reason count => Sys2Proof.Machine.execEvDiag reason count s

end Sys2Proof.Machine
end

