-- ==== Sys2Proof/Machine/Port.lean ====
section
/-! DEFINITION. What the step calls at the ports besides exec: a word no row of the opcode table takes, and a word placed so that
it is accepted next. -/

namespace Sys2Proof.Machine

/-- A word that decodes to no row. An orphan span that is no short form emits nothing, which is all R93 gives it; the other
words cannot arise and are refused by name (assumption 11). -/
def rejectWord (e : DecodeError) (s : State) : Host.Outcome State Fault Refusal :=
  match e with
  | .notShortForm => .next s
  | .notSync => .refused (.malformedWord .notSync)
  | .wrongLength => .refused (.malformedWord .wrongLength)
  | .syncInSpan => .refused (.malformedWord .syncInSpan)
  | .badKind => .refused (.malformedWord .badKind)
  | .badRecordLength => .refused (.malformedWord .badRecordLength)

/-- The word `c` placed first in the input, with the output stage empty and `rst` low during the next step. -/
def State.fetchNow (s : State) (c : Code) : State :=
  { s with input := c :: s.input, evtStage := [], lines := { rst := false, evtReady := true } :: s.lines }

end Sys2Proof.Machine
end

