-- ==== Sys2Proof/Machine/Step.lean ====
section
/-! DEFINITION. One step of the FSMM. A step is one event at its ports: a reset, a byte taken by the consumer, or a word accepted
and executed whole (R11, R64, R72). -/

namespace Sys2Proof.Machine

/-- One step, under this step's line levels. `rst` overrides all (R125). While the event output stage holds a byte the last
command is still in progress: the consumer takes one byte if `evt_ready`, and nothing moves if not (R64, R138). Otherwise the
next word, if any, is accepted and executed (R72); with none the block is idle and holds BUF (R124). DESIGN CHOICE: `cmd_valid` has no level of
its own, it is 1 exactly while `input` is not empty, so within a run the host does not pause with words still to come
(R63, R130; assumption 20). -/
def step (s : State) : Host.Outcome State Fault Refusal :=
  if s.linesNow.rst then .next s.dropLines.hardwareReset
  else
    match s.evtStage with
    | _ :: _ => if s.linesNow.evtReady then .next s.dropLines.takeByte else .next s.dropLines
    | [] =>
      match s.input with
      | [] => .next s.dropLines
      | c :: _ =>
        match decode c with
        | .ok i => exec i s.dropLines.dropInput
        | .error e => rejectWord e s.dropLines.dropInput

/-- The state `s` with the table word `w` of `nbits` bits standing first in the input, no byte waiting in the output stage and
`rst` low, so that the next step executes it. It stands for the host presenting the word (assumption 16). -/
def State.withFetchWord (s : State) (nbits w : Nat) : State := (s.fetchNow (codeOfTableWord nbits w))

end Sys2Proof.Machine
end

