-- ==== Sys2Proof/Machine/Run.lean ====
section
/-! DEFINITION. Runs: of commands at the transaction level (`run` of rule R72), of the pseudo-command CHUNK (R66), and of steps at the
ports. -/

namespace Sys2Proof.Machine

/-- The commands one after another, each on the state the last left, stopping at the first stop (R72). -/
def execAll : List Instr → State → Host.Outcome State Fault Refusal
  | [], s => .next s
  | i :: is, s =>
    match exec i s with
    | .next t => execAll is t
    | .fault f => .fault f
    | .refused r => .refused r

/-- `CHUNK b0 ... bn-1`: one PUSH per byte, then END (R66, R73). -/
def chunk (bs : List Byte) : List Instr := bs.map Instr.push ++ [.endChunk]

/-- One CHUNK after another. -/
def chunks (bss : List (List Byte)) : List Instr := bss.flatMap chunk

/-- `k` steps, stopping at the first stop. -/
def stepN : Nat → State → Host.Outcome State Fault Refusal
  | 0, s => .next s
  | k + 1, s =>
    match step s with
    | .next t => stepN k t
    | .fault f => .fault f
    | .refused r => .refused r

end Sys2Proof.Machine
end

