-- ==== Sys2Proof/Safety.lean ====
section
/-! DEFINITION. The terms claims about the FSMM are stated in: the invariant of a state, a host that only gives commands, and
what a buffer, a span and an event can be. -/

namespace Sys2Proof

/-- A word that R50 reserves. -/
def Instr.isReserved : Instr → Bool
  | .reserved01 _ | .reserved10 _ | .reserved11 _ => true
  | _ => false

end Sys2Proof

namespace Sys2Proof.Machine

open Config

/-- The event output stage ends with the last byte of a record: no record in it is cut short (R64). -/
def stageClosed (bs : List EvtByte) : Bool :=
  match bs.getLast? with
  | some b => b.last
  | none => true

/-- The invariant: legal parameters (R7), at most BUF_CAP bytes in BUF (R17), whole records in the output stage (R64). -/
def State.inv (s : State) : Bool := s.params.wf && s.buf.wf s.params.bufCap && stageClosed s.evtStage

/-- The host drives the block through its command port alone: every word waiting is an HCW (R63). -/
def State.hostDriven (s : State) : Bool := s.input.all fun c => decide (c.format = .hcw)

/-- The line levels during the step that is `k` steps ahead. -/
def State.linesAt (s : State) (k : Nat) : Lines := s.lines.getD k s.linesAfter

/-- The commands still waiting, decoded, oldest first. -/
def State.waitingInstrs (s : State) : List Instr := s.input.filterMap fun c => (decode c).toOption

/-- `m` is one whole frame: SYNC, a length field, and `m[1] + LEN_OVERHEAD` bytes in all (R28, R51). -/
def isFrame (m : List Byte) : Bool :=
  match m with
  | sync :: len :: _ => decide (sync = SYNC) && decide (m.length = totalLen len)
  | _ => false

/-- `m` is a BUF on which the scan suspends at the marker at its head: only the marker, or a frame not yet whole (R79, R81). -/
def suspended (m : List Byte) : Bool :=
  match m with
  | [sync] => decide (sync = SYNC)
  | sync :: len :: _ => decide (sync = SYNC) && decide (m.length < totalLen len)
  | [] => false

/-- `b` can be an orphan span: it is not empty and holds no SYNC byte (R78). -/
def isOrphan (b : List Byte) : Bool := !b.isEmpty && !b.contains SYNC

/-- A DiagnosticEvent. -/
def Event.isDiag : Event → Bool
  | .diag _ _ => true
  | _ => false

/-- An event that carries bytes of a frame: its payload is the StatusEvent's two bytes, or the UnknownMessageEvent's fields. -/
def Event.carriesBytes : Event → Bool
  | .status _ _ | .unknown _ _ _ => true
  | _ => false

/-- The digits a payload yields, in order (R100). -/
def keptDigits (payload : List Byte) : List (Fin 10) := payload.filterMap fun v => (decode7 v).digit

/-- The number a digit list writes, most significant digit first. -/
def numeral (ds : List (Fin 10)) : Nat := Nat.ofDigits 10 (ds.reverse.map Fin.val)

end Sys2Proof.Machine
end

