-- ==== Sys2Proof/Certificates/Slice0/Obligations.lean ====
section
/-! DEFINITION. The statements for the provers, each citing the rules of the spec it formalises. -/

open Sys2Proof Sys2Proof.Machine Sys2Proof.Config

/-! ## Reset and the invariant -/

/-- R30: the reset values, at State.reset, after a step under `rst`, and after a RESET command. The output stage is emptied by
the hardware reset only; the parameters do not change. -/
def Obligations.ResetValues : Prop :=
  (State.reset.buf = [] ∧ State.reset.bufLevel = 0 ∧ State.reset.full = false
    ∧ phase State.reset.buf = .awaitingSync ∧ State.reset.evtStage = [])
  ∧ (∀ s : State, s.params.wf = true → s.linesNow.rst = true →
      ∃ t, step s = .next t ∧ t.buf = [] ∧ t.bufLevel = 0 ∧ t.full = false ∧ phase t.buf = .awaitingSync
        ∧ t.evtStage = [] ∧ t.params = s.params)
  ∧ (∀ s : State, s.params.wf = true →
      ∃ t, exec .reset s = .next t ∧ t.buf = [] ∧ t.bufLevel = 0 ∧ t.full = false ∧ phase t.buf = .awaitingSync
        ∧ t.params = s.params)

/-- R125: while `rst` is 1, `cmd_ready` and `evt_valid` are 0, and the step empties BUF and the output stage; once `rst` is 0 again a
command can be accepted. That the waiting input, the bytes taken and `digitOut` stay is the model's inference (assumption 6), and
so are the line levels of which a step uses up one entry (assumption 5). -/
def Obligations.HardwareResetAbandonsCommand : Prop :=
  ∀ s : State, s.linesNow.rst = true →
    s.cmdReady = false ∧ s.evtValid = false
    ∧ ∃ t, step s = .next t ∧ t = { s with lines := s.lines.tail, buf := [], evtStage := [] }
      ∧ (t.linesNow.rst = false → t.cmdReady = true)

/-- The invariant (legal parameters, R7; at most BUF_CAP bytes, R17; whole records waiting, R64) holds after reset. -/
def Obligations.ResetMeetsInvariant : Prop := State.reset.inv = true

/-- Every step from a state that meets the invariant leads to one that meets it, and keeps the parameters (R7, R16, R17). -/
def Obligations.StepKeepsInvariant : Prop :=
  ∀ s t : State, s.inv = true → step s = .next t → t.inv = true ∧ t.params = s.params

/-! ## Encodings -/

/-- R49: the opcode map of the 1024 host command words, by match and mask. -/
def Obligations.HcwOpcodeMap : Prop :=
  ∀ w : Hcw,
    (w &&& 0x300 = 0x000 → decodeHcw w = .push (w.setWidth 8))
    ∧ (w = 0x100 → decodeHcw w = .endChunk)
    ∧ (w = 0x200 → decodeHcw w = .reset)
    ∧ (w &&& 0x300 = 0x100 → w &&& 0x0FF ≠ 0 → decodeHcw w = .reserved01 (w.setWidth 8))
    ∧ (w &&& 0x300 = 0x200 → w &&& 0x0FF ≠ 0 → decodeHcw w = .reserved10 (w.setWidth 8))
    ∧ (w &&& 0x300 = 0x300 → decodeHcw w = .reserved11 (w.setWidth 8))

/-- R50 and R71: the reserved words are exactly the 766 that are no PUSH, END or RESET, and each is accepted and completes with no
effect. -/
def Obligations.ReservedWordsAreNoOps : Prop :=
  (((List.range 1024).filter fun n => (decodeHcw (BitVec.ofNat 10 n)).isReserved).length = 766)
  ∧ (∀ w : Hcw, (decodeHcw w).isReserved = true ↔ (w &&& 0x300 ≠ 0 ∧ w ≠ 0x100 ∧ w ≠ 0x200))
  ∧ (∀ (data : Byte) (s : State),
      exec (.reserved01 data) s = .next s ∧ exec (.reserved10 data) s = .next s ∧ exec (.reserved11 data) s = .next s)

/-- A few words written out from the encodings of spec/30_encoding.md and spec/43_seven_segment.md. -/
def Obligations.WrittenWordsDecode : Prop :=
  decode (.hcw 0b0010011011) = .ok (.push 0x9B)
  ∧ decode (.hcw 0b0100000000) = .ok .endChunk
  ∧ decode (.hcw 0b1000000000) = .ok .reset
  ∧ decode (.hcw 0b1111111111) = .ok (.reserved11 0xFF)
  ∧ decode (.frame [0x9B, 0x07, 0x12, 0x06, 0x3F, 0x66, 0x63, 0xE5, 0x00, 0x01])
      = .ok (.height 0x06 0x3F 0x66 0x63 0xE5 0x00 0x01)
  ∧ decode (.frame [0x9B, 0x04, 0x11, 0xAA, 0x55, 0xCC, 0x77]) = .ok (.status 0xAA 0x55 0xCC 0x77)
  ∧ decode (.frame [0x9B, 0x02, 0x55, 0x66, 0x77]) = .ok (.unknown 0x02 0x55 [0x66, 0x77])
  ∧ decode (.short [0x07, 0x12, 0x86, 0xDB, 0x4F, 0x01, 0x02, 0x03]) = .ok (.shortHeight 0x86 0xDB 0x4F [0x01, 0x02, 0x03])
  ∧ decode (.seg7 0b11100110) = .ok (.seg4 true)
  ∧ decode (.evrec [0x01, 0x04, 0x19, 0x02]) = .ok (.evHeight 1049 2)

/-- Decoding the word of a well-formed instruction gives the instruction back, for every row of the table and every operand. -/
def Obligations.DecodeOfEncode : Prop := ∀ i : Instr, i.wf = true → decode (encode i) = .ok i

/-- Each word has one meaning: the instruction a word decodes to is encoded by that word alone. -/
def Obligations.EncodeOfDecode : Prop := ∀ (c : Code) (i : Instr), decode c = .ok i → encode i = c

/-- What the decoder reads from a host command word, a frame, an orphan span or a segment byte is well-formed. (Event records
are decoded by kind and length only: assumption 9.) -/
def Obligations.DecodedWordsAreWellFormed : Prop :=
  ∀ (c : Code) (i : Instr), decode c = .ok i → c.format ≠ .evrec → i.wf = true

/-- R58 to R62 and R64: every byte of an event's record, 16-bit fields most significant byte first; its row of the opcode table, with
the same fields; and on the wire byte 0 goes first, with `evt_last` on the last byte only. -/
def Obligations.RecordsOnTheWire : Prop :=
  ∀ e : Event,
    (wireBytes e.record).map EvtByte.data = e.record
    ∧ (wireBytes e.record).map EvtByte.last = List.replicate (e.record.length - 1) false ++ [true]
    ∧ encode e.row = .evrec e.record
    ∧ (match e with
      | .height h =>
          e.record = [0x01, BitVec.ofNat 8 (h.mant / 256), BitVec.ofNat 8 h.mant, BitVec.ofNat 8 h.scale]
          ∧ e.row = .evHeight (BitVec.ofNat 16 h.mant) (BitVec.ofNat 8 h.scale)
      | .status value1 value2 => e.record = [0x02, value1, value2] ∧ e.row = .evStatus value1 value2
      | .unknown len ty payload =>
          e.record = 0x03 :: len :: ty :: BitVec.ofNat 8 payload.length :: payload ∧ e.row = .evUnknown len ty payload
      | .diag .noSync count =>
          e.record = [0x04, 0x01, BitVec.ofNat 8 (count / 256), BitVec.ofNat 8 count]
          ∧ e.row = .evDiag 0x01 (BitVec.ofNat 16 count)
      | .diag .orphan count =>
          e.record = [0x04, 0x02, BitVec.ofNat 8 (count / 256), BitVec.ofNat 8 count]
          ∧ e.row = .evDiag 0x02 (BitVec.ofNat 16 count))

/-! ## Host commands -/

/-- R67 and R68: PUSH appends its byte when there is room and loses it when BUF is full; nothing else changes, so that BUF reads as
before at every offset but the old tail's. -/
def Obligations.PushAppendsOrLoses : Prop :=
  ∀ (b : Byte) (s : State),
    (s.buf.length < s.params.bufCap → exec (.push b) s = .next { s with buf := s.buf ++ [b] })
    ∧ (s.params.bufCap ≤ s.buf.length → exec (.push b) s = .next s)
    ∧ (∀ t, exec (.push b) s = .next t → ∀ a, a ≠ s.buf.length → readByte t.buf a = readByte s.buf a)

/-- R70: RESET clears BUF, so that `buf_level` and `full` are 0 (`full` in a build with some capacity); it emits nothing and
changes nothing else. -/
def Obligations.ResetClearsOnlyBuffer : Prop :=
  ∀ s : State, ∃ t, exec .reset s = .next t ∧ t = { s with buf := [] } ∧ t.bufLevel = 0
    ∧ (1 ≤ s.params.bufCap → t.full = false)

/-- R69 and R84: END always completes, from every state: SCAN ends without a fault, BUF becomes what it left, and its events' records
go, in order, behind what the output stage held. Nothing else changes. -/
def Obligations.EndRunsScanToCompletion : Prop :=
  ∀ s : State, ∃ (m : Memory) (es : List Event), scan s.params s.buf = .ok (m, es)
    ∧ exec .endChunk s = .next { s with buf := m, evtStage := s.evtStage ++ wireEvents es }

/-- R73: one PUSH per byte and then END is the append of the whole chunk and then one scan, as long as the chunk fits. -/
def Obligations.ChunkIsAppendThenScan : Prop :=
  ∀ (bs : List Byte) (s : State), s.buf.length + bs.length ≤ s.params.bufCap →
    execAll (chunk bs) s = exec .endChunk { s with buf := s.buf ++ bs }

/-- R74: END is idempotent. -/
def Obligations.EndIsIdempotent : Prop :=
  ∀ s t : State, exec .endChunk s = .next t → exec .endChunk t = .next t

/-! ## The scan -/

/-- R76: below MIN_SCAN = 6 bytes an iteration returns, BUF unchanged and nothing emitted; so END then changes nothing. -/
def Obligations.ShortBufferIsNotScanned : Prop :=
  (∀ (p : Params) (m : Memory), m.length < 6 → scanIteration p m = .ok { buf := m, events := [], again := false })
  ∧ (∀ s : State, s.buf.length < 6 → exec .endChunk s = .next s)

/-- R77 with R117: without a SYNC byte the whole of BUF is discarded; the one event is the NO_SYNC diagnostic, and only when
DIAG_ENABLE. -/
def Obligations.BufferWithoutSyncIsCleared : Prop :=
  ∀ s : State, 6 ≤ s.buf.length → s.buf.contains 0x9B = false →
    exec .endChunk s
      = .next { s with
          buf := []
          evtStage := s.evtStage
            ++ (if s.params.diagEnable then wireBytes (Event.diag .noSync s.buf.length).record else []) }

/-- R81: an incomplete frame at the head suspends the scan; nothing is consumed and nothing emitted. -/
def Obligations.IncompleteFrameSuspends : Prop :=
  ∀ (s : State) (len : Byte) (rest : List Byte), s.buf = 0x9B :: len :: rest → s.buf.length < len.toNat + 3 →
    exec .endChunk s = .next s

/-- R82 and R83: a whole frame at the head is extracted, exactly its `T` bytes, its event is emitted, and the scan goes on with
what follows. -/
def Obligations.FrameIsExtractedThenScanGoesOn : Prop :=
  ∀ (p : Params) (m rest : List Byte), isFrame m = true → 6 ≤ (m ++ rest).length →
    ∃ (es es' : List Event) (r : Memory), classifyFrame p m = .ok es ∧ scan p rest = .ok (r, es')
      ∧ scan p (m ++ rest) = .ok (r, es ++ es')

/-- R78 and R85: an orphan span is offered to the short-form classifier, then its diagnostic is emitted when DIAG_ENABLE, then it is
dropped; the drop and the event are kept when the scan then suspends. -/
def Obligations.OrphanDropIsKeptOnSuspend : Prop :=
  ∀ (s : State) (b m : List Byte), s.buf = b ++ m → isOrphan b = true → suspended m = true → 6 ≤ s.buf.length →
    ∃ es, classifyOrphan b = .ok es
      ∧ exec .endChunk s
          = .next { s with
              buf := m
              evtStage := s.evtStage ++ wireEvents (es ++ if s.params.diagEnable then [.diag .orphan b.length] else []) }

/-- R78, R82 and R119: an orphan span before a whole frame: the short-form event, the ORPHAN diagnostic, the frame's event, then
those of what follows; the frame is extracted whatever its length. -/
def Obligations.OrphanThenFrameInOrder : Prop :=
  ∀ (p : Params) (b m rest : List Byte), isOrphan b = true → isFrame m = true → 6 ≤ (b ++ m ++ rest).length →
    ∃ (eb em er : List Event) (r : Memory), classifyOrphan b = .ok eb ∧ classifyFrame p m = .ok em ∧ scan p rest = .ok (r, er)
      ∧ scan p (b ++ m ++ rest)
          = .ok (r, eb ++ (if p.diagEnable then [.diag .orphan b.length] else []) ++ em ++ er)

/-- R84: each iteration of SCAN completes; it returns or removes at least 3 bytes, and emits at most 2 events without
diagnostics and at most 3 with them. SCAN itself ends within `|BUF| / 3 + 1` iterations. -/
def Obligations.ScanTerminatesWithinBound : Prop :=
  ∀ (p : Params) (m : Memory),
    (∃ r, scanIteration p m = .ok r ∧ (r.again = true → r.buf.length + 3 ≤ m.length)
      ∧ r.events.length ≤ (if p.diagEnable then 3 else 2))
    ∧ (∃ r, scanLoop p (m.length / 3 + 1) m = .ok r)

/-- R31: after an END, exactly one of: fewer than 6 bytes; or SYNC at the head and at least 6 bytes but not the whole frame. -/
def Obligations.BufferAfterEnd : Prop :=
  ∀ s t : State, exec .endChunk s = .next t →
    Xor (t.buf.length < 6)
      (∃ (len : Byte) (rest : List Byte), t.buf = 0x9B :: len :: rest ∧ 6 ≤ t.buf.length ∧ t.buf.length < len.toNat + 3)

/-- R32: after every END at most 257 bytes are left, so with a legal BUF_CAP the next byte pushed is not lost. -/
def Obligations.EndLeavesRoom : Prop :=
  ∀ (s t : State) (b : Byte), exec .endChunk s = .next t →
    t.buf.length ≤ 257 ∧ (t.params.wf = true → exec (.push b) t = .next { t with buf := t.buf ++ [b] })

/-- R86: any split of one frame with `T >= 6` into chunks, fed into an empty BUF, gives the event of the frame and leaves BUF
empty. -/
def Obligations.OneFrameUnderAnySplit : Prop :=
  ∀ (s : State) (m : List Byte) (bss : List (List Byte)), s.params.wf = true → s.buf = [] → isFrame m = true → 6 ≤ m.length →
    bss.flatten = m →
    ∃ es, classifyFrame s.params m = .ok es
      ∧ execAll (chunks bss) s = .next { s with evtStage := s.evtStage ++ wireEvents es }

/-- R86: a frame with `T <= 5`, and a short form with nothing after it (or any bytes without SYNC), give no event under any split
(diagnostics off). -/
def Obligations.NoEventUnderAnySplit : Prop :=
  ∀ (s : State) (m : List Byte) (bss : List (List Byte)), s.params.wf = true → s.params.diagEnable = false → s.buf = [] →
    (isFrame m = true ∧ m.length ≤ 5 ∨ m.contains SYNC = false ∧ m.length ≤ s.params.bufCap) → bss.flatten = m →
    ∃ r, execAll (chunks bss) s = .next { s with buf := r }

/-- R126: a frame left pending by the scan is completed by PUSHes of its missing bytes and an END: it is extracted, and BUF is
left empty. -/
def Obligations.PendingFrameIsCompleted : Prop :=
  ∀ (s : State) (more : List Byte), s.params.wf = true → suspended s.buf = true → isFrame (s.buf ++ more) = true →
    6 ≤ (s.buf ++ more).length →
    ∃ es, classifyFrame s.params (s.buf ++ more) = .ok es
      ∧ execAll (chunk more) s = .next { s with buf := [], evtStage := s.evtStage ++ wireEvents es }

/-- R117: DIAG_ENABLE adds diagnostics and nothing else: the other events and BUF are the same, and without it no diagnostic is
emitted. -/
def Obligations.DiagnosticsOnlyAdd : Prop :=
  ∀ (p : Params) (m : Memory), ∃ (r : Memory) (es es' : List Event),
    scan { p with diagEnable := false } m = .ok (r, es)
    ∧ scan { p with diagEnable := true } m = .ok (r, es')
    ∧ es'.filter (fun e => !e.isDiag) = es
    ∧ es.all (fun e => !e.isDiag) = true

/-- R87: the bytes of an orphan span reach no payload: whatever the span, the events that carry bytes are the same, and so is the
BUF left. -/
def Obligations.OrphanBytesReachNoPayload : Prop :=
  ∀ (p : Params) (b c m : List Byte), isOrphan b = true → isOrphan c = true →
    6 ≤ (b ++ SYNC :: m).length → 6 ≤ (c ++ SYNC :: m).length →
    ∃ (r : Memory) (eb ec : List Event), scan p (b ++ SYNC :: m) = .ok (r, eb) ∧ scan p (c ++ SYNC :: m) = .ok (r, ec)
      ∧ eb.filter Event.carriesBytes = ec.filter Event.carriesBytes

/-- R27, R29, R59 to R62: every event the scan emits fits its record: heights within 9999 and scale 3, an unknown payload of
`L - 1` bytes, a diagnostic count of at least 1 and at most BUF_CAP. -/
def Obligations.EmittedEventsFitTheirRecords : Prop :=
  ∀ (p : Params) (m r : Memory) (es : List Event), p.wf = true → m.wf p.bufCap = true → scan p m = .ok (r, es) →
    ∀ e ∈ es, e.row.wf = true ∧ encode e.row = .evrec e.record
      ∧ (∀ h, e = .height h → h.mant ≤ 9999 ∧ h.scale ≤ 3)
      ∧ (∀ reason count, e = .diag reason count → 1 ≤ count ∧ count ≤ p.bufCap)

/-! ## The classifier -/

/-- R88: a HEIGHT frame emits the HeightEvent of Variant A's height, or nothing when the reading is INVALID, whatever `m[7]`,
`m[8]` and the trailer are; so says the classifier of every frame whose bytes pass the test, and so does the row's meaning, which
changes nothing else. -/
def Obligations.HeightFrameEmitsVariantA : Prop :=
  (∀ (p : Params) (m : List Byte) (p0 p1 p2 p3 : Byte), isFrame m = true → 9 ≤ m.length → m[1]? = some 0x07 → m[2]? = some 0x12 →
    m[3]? = some p0 → m[4]? = some p1 → m[5]? = some p2 → m[6]? = some p3 →
    (∀ h, assembleA p.multiPoint p0 p1 p2 p3 = .valid h → classifyFrame p m = .ok [.height h])
    ∧ (assembleA p.multiPoint p0 p1 p2 p3 = .invalid → classifyFrame p m = .ok []))
  ∧ (∀ (p0 p1 p2 p3 m7 m8 trailer : Byte) (s : State),
    (∀ h, assembleA s.params.multiPoint p0 p1 p2 p3 = .valid h →
      exec (.height p0 p1 p2 p3 m7 m8 trailer) s
        = .next { s with evtStage := s.evtStage ++ wireBytes (Event.height h).record })
    ∧ (assembleA s.params.multiPoint p0 p1 p2 p3 = .invalid → exec (.height p0 p1 p2 p3 m7 m8 trailer) s = .next s))

/-- R89: a STATUS frame emits `m[3]` and `m[4]` verbatim, whatever `m[5]` and the trailer are; so says the classifier of every
frame whose bytes pass the test, and so does the row's meaning, which changes nothing else. -/
def Obligations.StatusFrameEmitsTwoBytes : Prop :=
  (∀ (p : Params) (m : List Byte) (value1 value2 : Byte), isFrame m = true → 7 ≤ m.length → m[1]? = some 0x04 → m[2]? = some 0x11 →
    m[3]? = some value1 → m[4]? = some value2 → classifyFrame p m = .ok [.status value1 value2])
  ∧ (∀ (value1 value2 m5 trailer : Byte) (s : State),
    exec (.status value1 value2 m5 trailer) s
      = .next { s with evtStage := s.evtStage ++ [⟨0x02, false⟩, ⟨value1, false⟩, ⟨value2, true⟩] })

/-- R90: an UNKNOWN frame emits its length field, its type byte and the slice `m[3 .. max(3, |m|-1))`: none of its bytes for a
length field of 0 or 1, else as many as the length field less 1. So says the classifier of every frame that neither test takes,
and so does the row's meaning, which changes nothing else. -/
def Obligations.UnknownFrameEmitsMiddleSlice : Prop :=
  ∀ (len ty : Byte) (rest m : List Byte), m = SYNC :: len :: ty :: rest →
    (∀ p : Params, isFrame m = true → ¬(len = 0x07 ∧ ty = 0x12) → ¬(len = 0x04 ∧ ty = 0x11) →
      classifyFrame p m = .ok [.unknown len ty ((m.take (max 3 (m.length - 1))).drop 3)]
      ∧ ((m.take (max 3 (m.length - 1))).drop 3).length = len.toNat - 1)
    ∧ (∀ s : State, exec (.unknown len ty rest) s
      = .next { s with
          evtStage := s.evtStage
            ++ wireBytes (Event.unknown len ty ((m.take (max 3 (m.length - 1))).drop 3)).record })

/-- R93: a span of at least 8 bytes that begins `07 12` emits the HeightEvent of Variant B's height of the next three, or nothing
when the reading is INVALID, whatever `b[5..)` is; every other span emits nothing. The row's meaning emits the same, and changes
nothing else. -/
def Obligations.ShortFormEmitsVariantB : Prop :=
  (∀ (d0 d1 d2 : Byte) (rest : List Byte), 3 ≤ rest.length →
    (∀ h, assembleB d0 d1 d2 = .valid h → classifyOrphan (0x07 :: 0x12 :: d0 :: d1 :: d2 :: rest) = .ok [.height h])
    ∧ (assembleB d0 d1 d2 = .invalid → classifyOrphan (0x07 :: 0x12 :: d0 :: d1 :: d2 :: rest) = .ok []))
  ∧ (∀ b : List Byte, b.length < 8 ∨ b[0]? ≠ some 0x07 ∨ b[1]? ≠ some 0x12 → classifyOrphan b = .ok [])
  ∧ (∀ (d0 d1 d2 : Byte) (rest : List Byte) (s : State),
    (∀ h, assembleB d0 d1 d2 = .valid h →
      exec (.shortHeight d0 d1 d2 rest) s = .next { s with evtStage := s.evtStage ++ wireBytes (Event.height h).record })
    ∧ (assembleB d0 d1 d2 = .invalid → exec (.shortHeight d0 d1 d2 rest) s = .next s))

/-- R88 to R91: what the scan's classifier emits for a whole frame is what the meaning of the frame's row emits. -/
def Obligations.ClassifierRunsTheFrameRow : Prop :=
  ∀ (m : List Byte) (s : State), isFrame m = true →
    ∃ i es, decodeFrame m = .ok i ∧ classifyFrame s.params m = .ok es
      ∧ exec i s = .next { s with evtStage := s.evtStage ++ wireEvents es }

/-- R93: what the scan's classifier emits for an orphan span is what the meaning of the SHORT row emits, and nothing for a span
that is no short form. -/
def Obligations.ClassifierRunsTheShortRow : Prop :=
  ∀ (b : List Byte) (s : State), isOrphan b = true →
    ∃ es, classifyOrphan b = .ok es
      ∧ ((∃ i, decodeShort b = .ok i ∧ exec i s = .next { s with evtStage := s.evtStage ++ wireEvents es })
        ∨ (decodeShort b = .error .notShortForm ∧ es = []))

/-- R92: frames that differ only in the bytes no rule examines give the same events and the same BUF, whatever follows them. -/
def Obligations.UnexaminedBytesDoNotMatter : Prop :=
  ∀ (p : Params) (rest : List Byte),
    (∀ p0 p1 p2 p3 a7 a8 a9 b7 b8 b9 : Byte,
      scan p ([SYNC, H_LEN, H_TYPE, p0, p1, p2, p3, a7, a8, a9] ++ rest)
        = scan p ([SYNC, H_LEN, H_TYPE, p0, p1, p2, p3, b7, b8, b9] ++ rest))
    ∧ (∀ v1 v2 a5 a6 b5 b6 : Byte,
      scan p ([SYNC, S_LEN, S_TYPE, v1, v2, a5, a6] ++ rest) = scan p ([SYNC, S_LEN, S_TYPE, v1, v2, b5, b6] ++ rest))
    ∧ (∀ (len ty : Byte) (body : List Byte) (a b : Byte), body.length + 1 = len.toNat →
      6 ≤ (SYNC :: len :: ty :: body ++ [a] ++ rest).length →
      scan p (SYNC :: len :: ty :: body ++ [a] ++ rest) = scan p (SYNC :: len :: ty :: body ++ [b] ++ rest))

/-! ## Segment bytes -/

/-- R95 to R98: each SEG row gives its DigitReading and changes nothing else. -/
def Obligations.SegmentRowsGiveReadings : Prop :=
  ∀ (dp : Bool) (seg : SegCode) (s : State),
    exec .segBlank s = .next (s.outDigit ⟨none, false⟩)
    ∧ exec (.seg0 dp) s = .next (s.outDigit ⟨some 0, dp⟩) ∧ exec (.seg1 dp) s = .next (s.outDigit ⟨some 1, dp⟩)
    ∧ exec (.seg2 dp) s = .next (s.outDigit ⟨some 2, dp⟩) ∧ exec (.seg3 dp) s = .next (s.outDigit ⟨some 3, dp⟩)
    ∧ exec (.seg4 dp) s = .next (s.outDigit ⟨some 4, dp⟩) ∧ exec (.seg5 dp) s = .next (s.outDigit ⟨some 5, dp⟩)
    ∧ exec (.seg6 dp) s = .next (s.outDigit ⟨some 6, dp⟩) ∧ exec (.seg7 dp) s = .next (s.outDigit ⟨some 7, dp⟩)
    ∧ exec (.seg8 dp) s = .next (s.outDigit ⟨some 8, dp⟩) ∧ exec (.seg9 dp) s = .next (s.outDigit ⟨some 9, dp⟩)
    ∧ exec (.segInvalid dp seg) s = .next (s.outDigit ⟨none, dp⟩)

/-- R95 to R98: the row of a segment byte gives what DECODE7, which both height rules call, gives for the byte. -/
def Obligations.SegmentRowsAreDecode7 : Prop :=
  ∀ (v : Byte) (s : State), exec (decodeSeg7 v) s = .next { s with digitOut := s.digitOut ++ [decode7 v] }

/-- R95 to R98: DECODE7 of the blank byte, of the twenty bytes of SEGTAB with and without the point, and of every other byte. -/
def Obligations.Decode7Table : Prop :=
  decode7 0x00 = ⟨none, false⟩
  ∧ decode7 0x3F = ⟨some 0, false⟩ ∧ decode7 0xBF = ⟨some 0, true⟩ ∧ decode7 0x06 = ⟨some 1, false⟩ ∧ decode7 0x86 = ⟨some 1, true⟩
  ∧ decode7 0x5B = ⟨some 2, false⟩ ∧ decode7 0xDB = ⟨some 2, true⟩ ∧ decode7 0x4F = ⟨some 3, false⟩ ∧ decode7 0xCF = ⟨some 3, true⟩
  ∧ decode7 0x66 = ⟨some 4, false⟩ ∧ decode7 0xE6 = ⟨some 4, true⟩ ∧ decode7 0x6D = ⟨some 5, false⟩ ∧ decode7 0xED = ⟨some 5, true⟩
  ∧ decode7 0x7D = ⟨some 6, false⟩ ∧ decode7 0xFD = ⟨some 6, true⟩ ∧ decode7 0x07 = ⟨some 7, false⟩ ∧ decode7 0x87 = ⟨some 7, true⟩
  ∧ decode7 0x7F = ⟨some 8, false⟩ ∧ decode7 0xFF = ⟨some 8, true⟩ ∧ decode7 0x6F = ⟨some 9, false⟩ ∧ decode7 0xEF = ⟨some 9, true⟩
  ∧ (∀ v : Byte, v ≠ 0x00 → (decode7 v).dp = v.getLsbD 7)
  ∧ (∀ v : Byte, v &&& 0x7F ∉ [(0x3F : Byte), 0x06, 0x5B, 0x4F, 0x66, 0x6D, 0x7D, 0x07, 0x7F, 0x6F] → (decode7 v).digit = none)

/-- R99: 20 bytes yield a digit; 236 yield ABSENT, 118 of them with a point and 118 without; the ten codes are distinct; SYNC
decodes to `(ABSENT, true)`, and no code is `0000000`. -/
def Obligations.Decode7Counts : Prop :=
  (((List.range 256).map fun n => decode7 (BitVec.ofNat 8 n)).countP fun r => r.digit.isSome) = 20
  ∧ (((List.range 256).map fun n => decode7 (BitVec.ofNat 8 n)).countP fun r => r.digit.isNone && r.dp) = 118
  ∧ (((List.range 256).map fun n => decode7 (BitVec.ofNat 8 n)).countP fun r => r.digit.isNone && !r.dp) = 118
  ∧ (SEGTAB.map Prod.fst).Nodup ∧ 0 ∉ SEGTAB.map Prod.fst ∧ SEGTAB.map Prod.snd = [0, 1, 2, 3, 4, 5, 6, 7, 8, 9]
  ∧ decode7 SYNC = ⟨none, true⟩

/-! ## Heights -/

/-- R100, R101, R102, R104: Variant A with at most one flagged byte. The digits kept, in order, are the mantissa; the scale is the
number of digits kept from the bytes after the flagged one, 0 with none; INVALID exactly when no digit is kept. -/
def Obligations.VariantAWithOnePoint : Prop :=
  ∀ (rule : MultiPointRule) (p0 p1 p2 p3 : Byte),
    ((∀ v ∈ [p0, p1, p2, p3], (decode7 v).dp = false) →
      assembleA rule p0 p1 p2 p3
        = if keptDigits [p0, p1, p2, p3] = [] then .invalid else .valid ⟨numeral (keptDigits [p0, p1, p2, p3]), 0⟩)
    ∧ (∀ (before after : List Byte) (u : Byte), [p0, p1, p2, p3] = before ++ u :: after → (decode7 u).dp = true →
      (∀ v ∈ before ++ after, (decode7 v).dp = false) →
      assembleA rule p0 p1 p2 p3
        = if keptDigits [p0, p1, p2, p3] = [] then .invalid
          else .valid ⟨numeral (keptDigits [p0, p1, p2, p3]), (keptDigits after).length⟩)

/-- R103: Variant A with two or more flagged bytes, `u` and `v` the first two. INVALID under INVALID; under PREFIX the reading of
the string up to the second point. -/
def Obligations.VariantAWithSeveralPoints : Prop :=
  ∀ (p0 p1 p2 p3 : Byte) (before mid after : List Byte) (u v : Byte),
    [p0, p1, p2, p3] = before ++ u :: mid ++ v :: after → (decode7 u).dp = true → (decode7 v).dp = true →
    (∀ w ∈ before ++ mid, (decode7 w).dp = false) →
    assembleA .invalid p0 p1 p2 p3 = .invalid
    ∧ assembleA .prefixCut p0 p1 p2 p3
        = if keptDigits (before ++ u :: mid ++ [v]) = [] then .invalid
          else .valid ⟨numeral (keptDigits (before ++ u :: mid ++ [v])), (keptDigits (mid ++ [v])).length⟩

/-- R105, R106, R107: Variant B. INVALID when any byte yields no digit; otherwise the three-digit number, divided by 10 once when
any byte carries the point. -/
def Obligations.VariantBFormula : Prop :=
  ∀ q0 q1 q2 : Byte,
    ((decode7 q0).digit = none ∨ (decode7 q1).digit = none ∨ (decode7 q2).digit = none → assembleB q0 q1 q2 = .invalid)
    ∧ (∀ d0 d1 d2 : Fin 10, (decode7 q0).digit = some d0 → (decode7 q1).digit = some d1 → (decode7 q2).digit = some d2 →
      assembleB q0 q1 q2
        = .valid ⟨d0.val * 100 + d1.val * 10 + d2.val,
            if (decode7 q0).dp = true ∨ (decode7 q1).dp = true ∨ (decode7 q2).dp = true then 1 else 0⟩)

/-- R108: the variants differ on the same three digit bytes, as 95_test_vectors.md asserts, with the Heights compared by the
rational they denote (R27). -/
def Obligations.VariantsDiffer : Prop :=
  assembleB 0x06 0x5B 0xCF = .valid ⟨123, 1⟩ ∧ (∀ rule, assembleA rule 0x06 0x5B 0xCF 0x00 = .valid ⟨123, 0⟩)
  ∧ ¬Height.sameValue ⟨123, 1⟩ ⟨123, 0⟩
  ∧ assembleB 0x86 0xDB 0x4F = .valid ⟨123, 1⟩ ∧ assembleA .invalid 0x86 0xDB 0x4F 0x00 = .invalid
  ∧ assembleA .prefixCut 0x86 0xDB 0x4F 0x00 = .valid ⟨12, 1⟩
  ∧ assembleA .invalid 0x86 0x86 0x86 0x00 = .invalid ∧ assembleA .prefixCut 0x86 0x86 0x86 0x00 = .valid ⟨11, 1⟩
  ∧ assembleB 0x86 0x86 0x86 = .valid ⟨111, 1⟩

/-- R109: the ranges of both variants; a height of 0 is valid, and its event is emitted. -/
def Obligations.HeightRanges : Prop :=
  (∀ (rule : MultiPointRule) (p0 p1 p2 p3 : Byte) (h : Height), assembleA rule p0 p1 p2 p3 = .valid h →
    h.mant ≤ 9999 ∧ h.scale ≤ 3)
  ∧ (∀ (q0 q1 q2 : Byte) (h : Height), assembleB q0 q1 q2 = .valid h → h.mant ≤ 999 ∧ h.scale ≤ 1)
  ∧ assembleB 0x3F 0x3F 0x3F = .valid ⟨0, 0⟩
  ∧ classifyOrphan [0x07, 0x12, 0x3F, 0x3F, 0x3F, 0, 0, 0] = .ok [.height ⟨0, 0⟩]

/-! ## Event records -/

/-- R59 to R62: each EVREC row puts its record's bytes into the output stage, the last marked, and changes nothing else; a
diagnostic record only in a build with DIAG_ENABLE (R8). -/
def Obligations.RecordRowsReachTheStage : Prop :=
  ∀ (mant count : Half) (scale value1 value2 len ty reason : Byte) (payload : List Byte) (s : State),
    exec (.evHeight mant scale) s
      = .next { s with
          evtStage := s.evtStage
            ++ [⟨0x01, false⟩, ⟨(mant >>> 8).setWidth 8, false⟩, ⟨mant.setWidth 8, false⟩, ⟨scale, true⟩] }
    ∧ exec (.evStatus value1 value2) s
      = .next { s with evtStage := s.evtStage ++ [⟨0x02, false⟩, ⟨value1, false⟩, ⟨value2, true⟩] }
    ∧ exec (.evUnknown len ty payload) s
      = .next { s with evtStage := s.evtStage ++ wireBytes (0x03 :: len :: ty :: BitVec.ofNat 8 payload.length :: payload) }
    ∧ (s.params.diagEnable = true →
      exec (.evDiag reason count) s
        = .next { s with
            evtStage := s.evtStage
              ++ [⟨0x04, false⟩, ⟨reason, false⟩, ⟨(count >>> 8).setWidth 8, false⟩, ⟨count.setWidth 8, true⟩] })
    ∧ (s.params.diagEnable = false → exec (.evDiag reason count) s = .next s)

/-! ## The step and the ports -/

/-- A step runs the decoded instruction: with no reset, nothing waiting in the output stage and a word that decodes to `i` first in
the input, the step is exec of `i` after the word is accepted and this step's line levels are used up (R64, R72). The input list and the
schedule of line levels are the model's (assumptions 2 and 5), and so is a host that presents its next word at once (assumption 20). -/
def Obligations.StepRunsTheDecodedInstruction : Prop :=
  ∀ (s : State) (c : Code) (cs : List Code) (i : Instr), s.linesNow.rst = false → s.evtStage = [] → s.input = c :: cs →
    decode c = .ok i →
    step s = exec i { s with input := cs, lines := s.lines.tail }

/-- R64: while a byte waits, `cmd_ready` is 0 and no word is accepted; with `evt_ready = 1` the consumer takes exactly the byte
presented, and with `evt_ready = 0` the byte presented is held and nothing moves. (The schedule of line levels: assumption 5.) -/
def Obligations.EventPortHandshake : Prop :=
  ∀ (s : State) (b : EvtByte) (bs : List EvtByte), s.linesNow.rst = false → s.evtStage = b :: bs →
    s.cmdReady = false ∧ s.evtOut = some b
    ∧ (s.linesNow.evtReady = true →
      step s = .next { s with lines := s.lines.tail, evtStage := bs, evtTaken := s.evtTaken ++ [b] })
    ∧ (s.linesNow.evtReady = false → step s = .next { s with lines := s.lines.tail })

/-- R64, R138: an END completes by the consumer taking every byte in order: with the consumer ready for as many steps as bytes
wait, all are taken, and only then is the next command accepted. (The schedule of line levels: assumption 5.) -/
def Obligations.ReadyConsumerDrainsTheStage : Prop :=
  ∀ s : State, (∀ k < s.evtStage.length, s.linesAt k = { rst := false, evtReady := true }) →
    stepN s.evtStage.length s
      = .next { s with
          lines := s.lines.drop s.evtStage.length
          evtStage := []
          evtTaken := s.evtTaken ++ s.evtStage }

/-- R138: a consumer that takes no byte during the next `k` steps holds the command in progress: nothing moves, and `cmd_ready` stays
0. A consumer that never takes a byte again keeps `cmd_ready` at 0 for good: after any number of steps the END has not completed,
no further word is accepted and no byte delivered. (The line levels: assumption 5.) -/
def Obligations.StalledConsumerHoldsTheCommand : Prop :=
  (∀ (s : State) (k : Nat), s.evtStage ≠ [] → (∀ j < k, s.linesAt j = { rst := false, evtReady := false }) →
    stepN k s = .next { s with lines := s.lines.drop k } ∧ s.cmdReady = false ∧ { s with lines := s.lines.drop k }.cmdReady = false)
  ∧ (∀ s : State, s.evtStage ≠ [] → (∀ l ∈ s.lines, l = { rst := false, evtReady := false }) →
    s.linesAfter = { rst := false, evtReady := false } →
    ∀ k, ∃ t, stepN k s = .next t ∧ t.cmdReady = false ∧ t.evtStage = s.evtStage ∧ t.input = s.input ∧ t.evtTaken = s.evtTaken
      ∧ t.buf = s.buf)

/-- R127: a hardware reset after any number `k` of the waiting bytes have been taken: those `k` bytes are delivered, no more of
that END are, and BUF is empty. Which `k` is drawn is where the schedule of line levels puts `rst` (assumption 5), and what the
reset leaves alone is the model's inference (assumption 6). -/
def Obligations.ResetDuringEndDeliversAPrefix : Prop :=
  ∀ (s : State) (k : Nat) (later : List Lines) (ready : Bool), k ≤ s.evtStage.length →
    s.lines = List.replicate k { rst := false, evtReady := true } ++ { rst := true, evtReady := ready } :: later →
    stepN (k + 1) s
      = .next { s with
          lines := later
          buf := []
          evtStage := []
          evtTaken := s.evtTaken ++ s.evtStage.take k }

/-- R124: with no word waiting, no byte waiting and no reset, the block is idle and holds everything. That an idle step answers a
next state in which only the line levels are used up is the model's choice (assumptions 5 and 15), and so is that there is no
`evt_data` while `evt_valid` is 0 (assumption 19). -/
def Obligations.IdleHoldsBuffer : Prop :=
  ∀ s : State, s.linesNow.rst = false → s.evtStage = [] → s.input = [] →
    s.cmdReady = true ∧ s.evtOut = none ∧ step s = .next { s with lines := s.lines.tail }

/-- R21 and R23: the phase and the status outputs are functions of BUF: `buf_level` is its length in every state of the invariant,
`full` says whether that is BUF_CAP, and the phase is read off its head. -/
def Obligations.StatusOutputsAndPhase : Prop :=
  (∀ s : State, s.inv = true → s.bufLevel.toNat = s.buf.length ∧ (s.full = true ↔ s.buf.length = s.params.bufCap))
  ∧ (∀ m : Memory,
    (phase m = .awaitingLength ↔ m = [0x9B])
    ∧ (phase m = .awaitingBody ↔ 2 ≤ m.length ∧ m.head? = some 0x9B)
    ∧ (phase m = .awaitingSync ↔ m.head? ≠ some 0x9B))

/-! ## The whole machine -/

/-- R72: the observation of a run depends on the start and the commands only, not on timing: under any schedule of `evt_ready` without
a reset, when every command has completed, BUF and the bytes taken are those of the commands executed one after another. The input list,
the atomic END, the schedule and a host that does not pause are the model's (assumptions 2, 4, 5 and 20). -/
def Obligations.RunIsIndependentOfTiming : Prop :=
  ∀ (n : Nat) (s t : State), s.hostDriven = true → (∀ l ∈ s.lines, l.rst = false) → s.linesAfter.rst = false →
    stepN n s = .next t → t.input = [] → t.evtStage = [] →
    ∃ u, execAll s.waitingInstrs s = .next u ∧ t.buf = u.buf ∧ t.evtTaken = s.evtTaken ++ u.evtStage

/-- R110: there are no exceptions: from every state a step never faults, and while the host drives the block through its command
port the step always gives a next state, from which the same holds. -/
def Obligations.NoStepFaults : Prop :=
  ∀ s : State, (∀ f, step s ≠ .fault f)
    ∧ (s.hostDriven = true → ∃ t, step s = .next t ∧ t.hostDriven = true)

/-- R20: BUF is never reordered and no byte inside it is overwritten: a step leaves a tail part of BUF, or BUF with one byte
appended. -/
def Obligations.BufferIsAppendedOrDropped : Prop :=
  ∀ s t : State, step s = .next t → t.buf <:+ s.buf ∨ ∃ b, t.buf = s.buf ++ [b]

/-- The frame of every instruction (R14, R16, R20): exec changes no parameter, no input, no line level and no byte taken; the output
stage only grows, and only by END and the FRAME, SHORT and EVREC rows; BUF is kept by all but PUSH, END and RESET; a
DigitReading is given by the SEG7 rows only (`digitOut` is the model's own: assumption 3). -/
def Obligations.EveryInstructionFrame : Prop :=
  ∀ (i : Instr) (s t : State), exec i s = .next t →
    t.params = s.params ∧ t.input = s.input ∧ t.lines = s.lines ∧ t.linesAfter = s.linesAfter ∧ t.evtTaken = s.evtTaken
    ∧ s.evtStage <+: t.evtStage
    ∧ (i.format = .seg7 ∨ (i.format = .hcw ∧ i ≠ .endChunk) → t.evtStage = s.evtStage)
    ∧ ((∀ b, i ≠ .push b) → i ≠ .endChunk → i ≠ .reset → ∀ a, readByte t.buf a = readByte s.buf a)
    ∧ (i.format ≠ .hcw → t.buf = s.buf)
    ∧ (i.format ≠ .seg7 → t.digitOut = s.digitOut)
end

