-- ==== Sys2Proof/Laws/Constants.lean ====
section
/-! SUPPORT. The counts among the constants of rule R6 as numerals, for arithmetic; the byte constants keep their names. -/

namespace Sys2Proof.Config

@[simp] theorem MIN_SCAN_eq : MIN_SCAN = 6 := by decide
@[simp] theorem MIN_HDR_eq : MIN_HDR = 2 := by decide
@[simp] theorem LEN_OVERHEAD_eq : LEN_OVERHEAD = 3 := by decide
@[simp] theorem H_MIN_eq : H_MIN = 9 := by decide
@[simp] theorem S_MIN_eq : S_MIN = 7 := by decide
@[simp] theorem SF_MIN_eq : SF_MIN = 8 := by decide
@[simp] theorem H_PAY_LO_eq : H_PAY_LO = 3 := by decide
@[simp] theorem H_PAY_HI_eq : H_PAY_HI = 7 := by decide
@[simp] theorem SF_PAY_LO_eq : SF_PAY_LO = 2 := by decide
@[simp] theorem SF_PAY_HI_eq : SF_PAY_HI = 5 := by decide
@[simp] theorem DP_BIT_eq : DP_BIT = 7 := by decide
@[simp] theorem PAYLOAD_MAX_eq : PAYLOAD_MAX = 254 := by decide
@[simp] theorem MANT_MAX_eq : MANT_MAX = 9999 := by decide
@[simp] theorem SCALE_MAX_eq : SCALE_MAX = 3 := by decide
@[simp] theorem BUF_CAP_MIN_eq : BUF_CAP_MIN = 258 := by decide
@[simp] theorem BUF_CAP_MAX_eq : BUF_CAP_MAX = 65535 := by decide
@[simp] theorem BUF_CAP_DEFAULT_eq : BUF_CAP_DEFAULT = 512 := by decide
@[simp] theorem H_LEN_toNat : H_LEN.toNat = 7 := by decide
@[simp] theorem S_LEN_toNat : S_LEN.toNat = 4 := by decide

end Sys2Proof.Config

namespace Sys2Proof

/-- Legal parameters, as arithmetic (R7). -/
theorem Params.wf_iff (p : Params) : p.wf = true ↔ 258 ≤ p.bufCap ∧ p.bufCap ≤ 65535 := by
  simp [Params.wf]

end Sys2Proof
end

