-- ==== Sys2Proof/Laws/Height.lean ====
section
/-! SUPPORT. Variant A's string, operation by operation: digits, points, and where the first two points stand. -/

namespace Sys2Proof.Machine

@[simp] theorem digitsOf_append (a b : List Glyph) : digitsOf (a ++ b) = digitsOf a ++ digitsOf b := by
  induction a with
  | nil => rfl
  | cons x a ih => cases x <;> simp [digitsOf, ih]

@[simp] theorem pointsIn_append (a b : List Glyph) : pointsIn (a ++ b) = pointsIn a + pointsIn b := by
  induction a with
  | nil => simp [pointsIn]
  | cons x a ih => cases x <;> simp [pointsIn, ih]; omega

theorem displayString_append (a b : List Byte) : displayString (a ++ b) = displayString a ++ displayString b := by
  simp [displayString]

theorem keptDigits_append (a b : List Byte) : keptDigits (a ++ b) = keptDigits a ++ keptDigits b := by simp [keptDigits]

theorem keptDigits_length (vs : List Byte) : (keptDigits vs).length ≤ vs.length := List.length_filterMap_le _ _

/-- The digits of the string are the digits kept (R100). -/
theorem digitsOf_displayString (vs : List Byte) : digitsOf (displayString vs) = keptDigits vs := by
  induction vs with
  | nil => rfl
  | cons v vs ih =>
    simp only [displayString, List.flatMap_cons, digitsOf_append, keptDigits, List.filterMap_cons] at ih ⊢
    rw [ih]
    simp only [glyphsOf, digitsOf_append]
    cases (decode7 v).digit <;> cases (decode7 v).dp <;> simp [digitsOf]

theorem pointsIn_displayString_none {vs : List Byte} (h : ∀ v ∈ vs, (decode7 v).dp = false) : pointsIn (displayString vs) = 0 := by
  induction vs with
  | nil => rfl
  | cons v vs ih =>
    have hv := h v (by simp)
    have := ih (fun u hu => h u (by simp [hu]))
    simp only [displayString, List.flatMap_cons, pointsIn_append] at this ⊢
    rw [this]
    simp only [glyphsOf, hv]
    cases (decode7 v).digit <;> simp [pointsIn]

theorem afterPoint_append {a b : List Glyph} (h : pointsIn a = 0) : afterPoint (a ++ b) = afterPoint b := by
  induction a with
  | nil => rfl
  | cons x a ih => cases x <;> simp_all [pointsIn, afterPoint]

theorem beforePoint_append {a b : List Glyph} (h : pointsIn a = 0) : beforePoint (a ++ b) = a ++ beforePoint b := by
  induction a with
  | nil => rfl
  | cons x a ih => cases x <;> simp_all [pointsIn, beforePoint]

theorem cutSecondPoint_append {a b : List Glyph} (h : pointsIn a = 0) : cutSecondPoint (a ++ b) = a ++ cutSecondPoint b := by
  induction a with
  | nil => rfl
  | cons x a ih => cases x <;> simp_all [pointsIn, cutSecondPoint]

/-- The value of a digit string, computed left to right, is the number it writes (R104). -/
theorem decimal_eq_numeral (ds : List (Fin 10)) : decimal ds = numeral ds := by
  have h : ∀ n, ds.foldl (fun n d => 10 * n + d.val) n = Nat.ofDigits 10 (ds.reverse.map Fin.val) + 10 ^ ds.length * n := by
    induction ds with
    | nil => intro n; simp
    | cons d ds ih =>
      intro n
      rw [List.foldl_cons, ih]
      simp [Nat.ofDigits_append, Nat.pow_succ]
      ring
  simp [decimal, numeral, h]

theorem numeral_lt (ds : List (Fin 10)) : numeral ds < 10 ^ ds.length := by
  have := Nat.ofDigits_lt_base_pow_length (b := 10) (l := ds.reverse.map Fin.val) (by norm_num) (by simp)
  simpa [numeral] using this

end Sys2Proof.Machine
end

