-- ==== Sys2Proof/Laws/State.lean ====
section
/-! SUPPORT. One lemma per field per update of State, so that no later proof unfolds a record update, and the few lemmas about
how the updates combine. -/

namespace Sys2Proof.Machine

@[simp] theorem State.setBuf_params (s : State) (m : Memory) : (s.setBuf m).params = s.params := rfl
@[simp] theorem State.setBuf_buf (s : State) (m : Memory) : (s.setBuf m).buf = m := rfl
@[simp] theorem State.setBuf_evtStage (s : State) (m : Memory) : (s.setBuf m).evtStage = s.evtStage := rfl
@[simp] theorem State.setBuf_input (s : State) (m : Memory) : (s.setBuf m).input = s.input := rfl
@[simp] theorem State.setBuf_lines (s : State) (m : Memory) : (s.setBuf m).lines = s.lines := rfl
@[simp] theorem State.setBuf_linesAfter (s : State) (m : Memory) : (s.setBuf m).linesAfter = s.linesAfter := rfl
@[simp] theorem State.setBuf_evtTaken (s : State) (m : Memory) : (s.setBuf m).evtTaken = s.evtTaken := rfl
@[simp] theorem State.setBuf_digitOut (s : State) (m : Memory) : (s.setBuf m).digitOut = s.digitOut := rfl

@[simp] theorem State.stageBytes_params (s : State) (bs : List EvtByte) : (s.stageBytes bs).params = s.params := rfl
@[simp] theorem State.stageBytes_buf (s : State) (bs : List EvtByte) : (s.stageBytes bs).buf = s.buf := rfl
@[simp] theorem State.stageBytes_evtStage (s : State) (bs : List EvtByte) :
    (s.stageBytes bs).evtStage = s.evtStage ++ bs := rfl
@[simp] theorem State.stageBytes_input (s : State) (bs : List EvtByte) : (s.stageBytes bs).input = s.input := rfl
@[simp] theorem State.stageBytes_lines (s : State) (bs : List EvtByte) : (s.stageBytes bs).lines = s.lines := rfl
@[simp] theorem State.stageBytes_linesAfter (s : State) (bs : List EvtByte) : (s.stageBytes bs).linesAfter = s.linesAfter := rfl
@[simp] theorem State.stageBytes_evtTaken (s : State) (bs : List EvtByte) : (s.stageBytes bs).evtTaken = s.evtTaken := rfl
@[simp] theorem State.stageBytes_digitOut (s : State) (bs : List EvtByte) : (s.stageBytes bs).digitOut = s.digitOut := rfl

@[simp] theorem State.outDigit_params (s : State) (r : DigitReading) : (s.outDigit r).params = s.params := rfl
@[simp] theorem State.outDigit_buf (s : State) (r : DigitReading) : (s.outDigit r).buf = s.buf := rfl
@[simp] theorem State.outDigit_evtStage (s : State) (r : DigitReading) : (s.outDigit r).evtStage = s.evtStage := rfl
@[simp] theorem State.outDigit_input (s : State) (r : DigitReading) : (s.outDigit r).input = s.input := rfl
@[simp] theorem State.outDigit_lines (s : State) (r : DigitReading) : (s.outDigit r).lines = s.lines := rfl
@[simp] theorem State.outDigit_linesAfter (s : State) (r : DigitReading) : (s.outDigit r).linesAfter = s.linesAfter := rfl
@[simp] theorem State.outDigit_evtTaken (s : State) (r : DigitReading) : (s.outDigit r).evtTaken = s.evtTaken := rfl
@[simp] theorem State.outDigit_digitOut (s : State) (r : DigitReading) : (s.outDigit r).digitOut = s.digitOut ++ [r] := rfl

@[simp] theorem State.hardwareReset_params (s : State) : s.hardwareReset.params = s.params := rfl
@[simp] theorem State.hardwareReset_buf (s : State) : s.hardwareReset.buf = [] := rfl
@[simp] theorem State.hardwareReset_evtStage (s : State) : s.hardwareReset.evtStage = [] := rfl
@[simp] theorem State.hardwareReset_input (s : State) : s.hardwareReset.input = s.input := rfl
@[simp] theorem State.hardwareReset_lines (s : State) : s.hardwareReset.lines = s.lines := rfl
@[simp] theorem State.hardwareReset_linesAfter (s : State) : s.hardwareReset.linesAfter = s.linesAfter := rfl
@[simp] theorem State.hardwareReset_evtTaken (s : State) : s.hardwareReset.evtTaken = s.evtTaken := rfl
@[simp] theorem State.hardwareReset_digitOut (s : State) : s.hardwareReset.digitOut = s.digitOut := rfl

@[simp] theorem State.dropInput_params (s : State) : s.dropInput.params = s.params := rfl
@[simp] theorem State.dropInput_buf (s : State) : s.dropInput.buf = s.buf := rfl
@[simp] theorem State.dropInput_evtStage (s : State) : s.dropInput.evtStage = s.evtStage := rfl
@[simp] theorem State.dropInput_input (s : State) : s.dropInput.input = s.input.tail := rfl
@[simp] theorem State.dropInput_lines (s : State) : s.dropInput.lines = s.lines := rfl
@[simp] theorem State.dropInput_linesAfter (s : State) : s.dropInput.linesAfter = s.linesAfter := rfl
@[simp] theorem State.dropInput_evtTaken (s : State) : s.dropInput.evtTaken = s.evtTaken := rfl
@[simp] theorem State.dropInput_digitOut (s : State) : s.dropInput.digitOut = s.digitOut := rfl

@[simp] theorem State.dropLines_params (s : State) : s.dropLines.params = s.params := rfl
@[simp] theorem State.dropLines_buf (s : State) : s.dropLines.buf = s.buf := rfl
@[simp] theorem State.dropLines_evtStage (s : State) : s.dropLines.evtStage = s.evtStage := rfl
@[simp] theorem State.dropLines_input (s : State) : s.dropLines.input = s.input := rfl
@[simp] theorem State.dropLines_lines (s : State) : s.dropLines.lines = s.lines.tail := rfl
@[simp] theorem State.dropLines_linesAfter (s : State) : s.dropLines.linesAfter = s.linesAfter := rfl
@[simp] theorem State.dropLines_evtTaken (s : State) : s.dropLines.evtTaken = s.evtTaken := rfl
@[simp] theorem State.dropLines_digitOut (s : State) : s.dropLines.digitOut = s.digitOut := rfl

@[simp] theorem State.takeByte_params (s : State) : s.takeByte.params = s.params := rfl
@[simp] theorem State.takeByte_buf (s : State) : s.takeByte.buf = s.buf := rfl
@[simp] theorem State.takeByte_evtStage (s : State) : s.takeByte.evtStage = s.evtStage.tail := rfl
@[simp] theorem State.takeByte_input (s : State) : s.takeByte.input = s.input := rfl
@[simp] theorem State.takeByte_lines (s : State) : s.takeByte.lines = s.lines := rfl
@[simp] theorem State.takeByte_linesAfter (s : State) : s.takeByte.linesAfter = s.linesAfter := rfl
@[simp] theorem State.takeByte_evtTaken (s : State) : s.takeByte.evtTaken = s.evtTaken ++ s.evtStage.take 1 := rfl
@[simp] theorem State.takeByte_digitOut (s : State) : s.takeByte.digitOut = s.digitOut := rfl

theorem State.emit_eq_stageBytes (s : State) (es : List Event) : s.emit es = s.stageBytes (wireEvents es) := rfl
theorem State.emitRecord_eq_stageBytes (s : State) (r : List Byte) : s.emitRecord r = s.stageBytes (wireBytes r) := rfl
theorem State.pushByte_eq_setBuf (s : State) (b : Byte) : s.pushByte b = s.setBuf (s.buf.append s.params.bufCap b) := rfl
theorem State.clearBuf_eq_setBuf (s : State) : s.clearBuf = s.setBuf [] := rfl

@[simp] theorem State.setBuf_self (s : State) : s.setBuf s.buf = s := rfl
@[simp] theorem State.stageBytes_nil (s : State) : s.stageBytes [] = s := by simp [State.stageBytes]

@[simp] theorem wireEvents_nil : wireEvents [] = [] := rfl
@[simp] theorem wireEvents_append (es fs : List Event) : wireEvents (es ++ fs) = wireEvents es ++ wireEvents fs := by
  simp [wireEvents]
@[simp] theorem wireEvents_singleton (e : Event) : wireEvents [e] = wireBytes e.record := by simp [wireEvents]

end Sys2Proof.Machine
end

