-- ==== Sys2Proof/Laws/Ops.lean ====
section
/-! SUPPORT. One lemma per shared operation: reads, the sync search, the three writes of BUF and the records on the wire. -/

namespace Sys2Proof.Machine

open Config

/-! ## Reads -/

theorem readSpan_ok {m : List Byte} {i n : Nat} (h : i + n ≤ m.length) : readSpan m i n = .ok ((m.drop i).take n) := by
  simp [readSpan, h]

theorem readByte_ok {m : List Byte} {i : Nat} {v : Byte} (h : m[i]? = some v) : readByte m i = .ok v := by
  simp [readByte, h]

/-! ## The sync search (R77) -/

theorem firstOffset_none_iff (m : List Byte) (v : Byte) : firstOffset m v = none ↔ v ∉ m := by
  induction m with
  | nil => simp [firstOffset]
  | cons b m ih =>
    by_cases h : b = v
    · simp [firstOffset, h]
    · simp [firstOffset, h, ih, Ne.symm h]

/-- The first marker of a span without it followed by it is right behind the span. -/
theorem firstOffset_append_cons {b : List Byte} {v : Byte} (m : List Byte) (h : v ∉ b) :
    firstOffset (b ++ v :: m) v = some b.length := by
  induction b with
  | nil => simp [firstOffset]
  | cons c b ih =>
    simp only [List.mem_cons, not_or] at h
    simp [firstOffset, Ne.symm h.1, ih h.2]

/-- Where the search finds the marker, BUF is an orphan span without it, then the marker, then the rest. -/
theorem firstOffset_some {m : List Byte} {v : Byte} {k : Nat} (h : firstOffset m v = some k) :
    ∃ b r, m = b ++ v :: r ∧ v ∉ b ∧ b.length = k := by
  induction m generalizing k with
  | nil => simp [firstOffset] at h
  | cons c m ih =>
    by_cases hc : c = v
    · simp only [firstOffset, hc, if_true, Option.some.injEq] at h
      exact ⟨[], m, by simp [hc], by simp, by simp [h]⟩
    · simp only [firstOffset, hc, if_false, Option.map_eq_some_iff] at h
      obtain ⟨j, hj, rfl⟩ := h
      obtain ⟨b, r, rfl, hb, hl⟩ := ih hj
      exact ⟨c :: b, r, by simp, by simp [hb, Ne.symm hc], by simp [hl]⟩

/-! ## The three writes keep BUF's form (R17, R20) -/

theorem Memory.append_wf {cap : Nat} {m : Memory} (v : Byte) (h : m.wf cap = true) : (m.append cap v).wf cap = true := by
  simp only [Memory.wf, decide_eq_true_eq] at *
  unfold Memory.append
  split
  · rw [List.length_append, List.length_singleton]; omega
  · exact h

theorem Memory.dropHead_wf {cap : Nat} {m : Memory} (n : Nat) (h : m.wf cap = true) : (m.dropHead n).wf cap = true := by
  simp only [Memory.wf, Memory.dropHead, List.length_drop, decide_eq_true_eq] at *
  omega

theorem Memory.clear_wf (cap : Nat) : Memory.clear.wf cap = true := by simp [Memory.wf, Memory.clear]

theorem Memory.append_of_room {cap : Nat} {m : Memory} (v : Byte) (h : m.length < cap) : m.append cap v = m ++ [v] := by
  simp [Memory.append, h]

theorem Memory.append_of_full {cap : Nat} {m : Memory} (v : Byte) (h : cap ≤ m.length) : m.append cap v = m := by
  simp [Memory.append, Nat.not_lt.mpr h]

/-! ## Records on the wire -/

theorem wireBytes_data (r : List Byte) : (wireBytes r).map EvtByte.data = r := by
  induction r using wireBytes.induct with
  | case1 => rfl
  | case2 => rfl
  | case3 b c r ih => simp [wireBytes, ih]

theorem wireBytes_last {r : List Byte} (h : r ≠ []) :
    (wireBytes r).map EvtByte.last = List.replicate (r.length - 1) false ++ [true] := by
  induction r using wireBytes.induct with
  | case1 => exact absurd rfl h
  | case2 => rfl
  | case3 b c r ih => simp [wireBytes, ih, List.replicate_succ]

theorem Event.record_ne_nil (e : Event) : e.record ≠ [] := by
  cases e <;> simp [Event.record, recordHeight, recordStatus, recordUnknown, recordDiag]

/-- The bytes of an event are the encoding of its row (R59 to R62). -/
theorem Event.encode_row (e : Event) : encode e.row = .evrec e.record := by cases e <;> rfl

end Sys2Proof.Machine
end

