-- ==== Sys2Proof/Laws/PerInstr.lean ====
section
/-! SUPPORT. The family TableMatch: the word of a well-formed instruction matches its row's match and mask in
spec/opcode_table.json, in the table's numbering. -/

namespace Sys2Proof.Laws.TableMatch

/-- The bits the table numbers of an encoded word, the first byte the most significant one: 10 bits of an HCW, three bytes of a
frame, two of a span, one of a segment byte or a record. -/
def tableBits : Code → Nat
  | .hcw w => w.toNat
  | .frame m => (m.getD 0 0).toNat * 65536 + (m.getD 1 0).toNat * 256 + (m.getD 2 0).toNat
  | .short b => (b.getD 0 0).toNat * 256 + (b.getD 1 0).toNat
  | .seg7 v => v.toNat
  | .evrec r => (r.getD 0 0).toNat

/-- The row's match and mask (spec/opcode_table.json). -/
def row : Instr → Nat × Nat
  | .push _ => (0x000, 0x300)
  | .endChunk => (0x100, 0x3FF)
  | .reset => (0x200, 0x3FF)
  | .reserved01 _ => (0x100, 0x300)
  | .reserved10 _ => (0x200, 0x300)
  | .reserved11 _ => (0x300, 0x300)
  | .height .. => (0x9B0712, 0xFFFFFF)
  | .status .. => (0x9B0411, 0xFFFFFF)
  | .unknown .. => (0x9B0000, 0xFF0000)
  | .shortHeight .. => (0x0712, 0xFFFF)
  | .segBlank => (0x00, 0xFF)
  | .seg0 _ => (0x3F, 0x7F)
  | .seg1 _ => (0x06, 0x7F)
  | .seg2 _ => (0x5B, 0x7F)
  | .seg3 _ => (0x4F, 0x7F)
  | .seg4 _ => (0x66, 0x7F)
  | .seg5 _ => (0x6D, 0x7F)
  | .seg6 _ => (0x7D, 0x7F)
  | .seg7 _ => (0x07, 0x7F)
  | .seg8 _ => (0x7F, 0x7F)
  | .seg9 _ => (0x6F, 0x7F)
  | .segInvalid .. => (0x00, 0x00)
  | .evHeight .. => (0x01, 0xFF)
  | .evStatus .. => (0x02, 0xFF)
  | .evUnknown .. => (0x03, 0xFF)
  | .evDiag .. => (0x04, 0xFF)

/-- A well-formed instruction's word matches its row. -/
def Statement (i : Instr) : Prop := i.wf = true → tableBits (encode i) &&& (row i).2 = (row i).1

theorem hcw_bits : ∀ (op : BitVec 2) (data : Byte), (hcwWord op data).toNat &&& 0x300 = op.toNat * 256 := by decide +kernel

theorem seg_bits : ∀ (dp : Bool) (seg : SegCode), (segByte dp seg).toNat &&& 0x7F = seg.toNat := by decide +kernel

theorem push (b : Byte) : Statement (.push b) := fun _ => hcw_bits 0b00 b
theorem endChunk : Statement .endChunk := fun _ => rfl
theorem reset : Statement .reset := fun _ => rfl
theorem reserved01 (data : Byte) : Statement (.reserved01 data) := fun _ => hcw_bits 0b01 data
theorem reserved10 (data : Byte) : Statement (.reserved10 data) := fun _ => hcw_bits 0b10 data
theorem reserved11 (data : Byte) : Statement (.reserved11 data) := fun _ => hcw_bits 0b11 data
theorem height (p0 p1 p2 p3 m7 m8 trailer : Byte) : Statement (.height p0 p1 p2 p3 m7 m8 trailer) :=
  fun _ => (by decide : (0x9B : Byte).toNat * 65536 + (0x07 : Byte).toNat * 256 + (0x12 : Byte).toNat &&& 0xFFFFFF = 0x9B0712)
theorem status (value1 value2 m5 trailer : Byte) : Statement (.status value1 value2 m5 trailer) :=
  fun _ => (by decide : (0x9B : Byte).toNat * 65536 + (0x04 : Byte).toNat * 256 + (0x11 : Byte).toNat &&& 0xFFFFFF = 0x9B0411)

theorem unknown (len ty : Byte) (rest : List Byte) : Statement (.unknown len ty rest) := by
  intro _
  have hl := len.isLt
  have ht := ty.isLt
  have key : ∀ n < 65536, (0x9B * 65536 + n) &&& 0xFF0000 = 0x9B0000 := by
    intro n hn
    have h : 0x9B * 65536 + n = 0x9B <<< 16 ||| n := by rw [← Nat.shiftLeft_add_eq_or_of_lt (by omega : n < 2 ^ 16)]; rfl
    rw [h, Nat.and_or_distrib_right]
    have hz : n &&& 0xFF0000 = 0 := by
      rw [show (0xFF0000 : Nat) = 0xFF <<< 16 from rfl]
      apply Nat.eq_of_testBit_eq
      intro i
      rw [Nat.testBit_and, Nat.testBit_shiftLeft, Nat.zero_testBit]
      by_cases hi : 16 ≤ i
      · rw [Nat.testBit_lt_two_pow (Nat.lt_of_lt_of_le (by omega : n < 2 ^ 16) (Nat.pow_le_pow_right (by omega) hi)), Bool.false_and]
      · simp [hi]
    rw [hz]
    rfl
  have h := key (len.toNat * 256 + ty.toNat) (by omega)
  rw [← Nat.add_assoc] at h
  exact h

theorem shortHeight (d0 d1 d2 : Byte) (rest : List Byte) : Statement (.shortHeight d0 d1 d2 rest) :=
  fun _ => (by decide : (0x07 : Byte).toNat * 256 + (0x12 : Byte).toNat &&& 0xFFFF = 0x0712)
theorem segBlank : Statement .segBlank := fun _ => rfl
theorem seg0 (dp : Bool) : Statement (.seg0 dp) := fun _ => seg_bits dp (Config.SEGCODE 0)
theorem seg1 (dp : Bool) : Statement (.seg1 dp) := fun _ => seg_bits dp (Config.SEGCODE 1)
theorem seg2 (dp : Bool) : Statement (.seg2 dp) := fun _ => seg_bits dp (Config.SEGCODE 2)
theorem seg3 (dp : Bool) : Statement (.seg3 dp) := fun _ => seg_bits dp (Config.SEGCODE 3)
theorem seg4 (dp : Bool) : Statement (.seg4 dp) := fun _ => seg_bits dp (Config.SEGCODE 4)
theorem seg5 (dp : Bool) : Statement (.seg5 dp) := fun _ => seg_bits dp (Config.SEGCODE 5)
theorem seg6 (dp : Bool) : Statement (.seg6 dp) := fun _ => seg_bits dp (Config.SEGCODE 6)
theorem seg7 (dp : Bool) : Statement (.seg7 dp) := fun _ => seg_bits dp (Config.SEGCODE 7)
theorem seg8 (dp : Bool) : Statement (.seg8 dp) := fun _ => seg_bits dp (Config.SEGCODE 8)
theorem seg9 (dp : Bool) : Statement (.seg9 dp) := fun _ => seg_bits dp (Config.SEGCODE 9)
theorem segInvalid (dp : Bool) (seg : SegCode) : Statement (.segInvalid dp seg) := fun _ => Nat.and_zero _
theorem evHeight (mant : Half) (scale : Byte) : Statement (.evHeight mant scale) :=
  fun _ => (by decide : (0x01 : Byte).toNat &&& 0xFF = 0x01)
theorem evStatus (value1 value2 : Byte) : Statement (.evStatus value1 value2) :=
  fun _ => (by decide : (0x02 : Byte).toNat &&& 0xFF = 0x02)
theorem evUnknown (len ty : Byte) (payload : List Byte) : Statement (.evUnknown len ty payload) :=
  fun _ => (by decide : (0x03 : Byte).toNat &&& 0xFF = 0x03)
theorem evDiag (reason : Byte) (count : Half) : Statement (.evDiag reason count) :=
  fun _ => (by decide : (0x04 : Byte).toNat &&& 0xFF = 0x04)

end Sys2Proof.Laws.TableMatch
end

