-- ==== Sys2Proof/Laws/Scan.lean ====
section
/-! SUPPORT. What SCAN does, said once: the shapes of a frame, the classifier on each, one iteration of the scan case by case,
and the equations of the whole scan with the induction that goes with them. -/

namespace Sys2Proof.Machine

open Config

/-! ## Shapes -/

/-- A whole frame is SYNC, a length field, a type byte and as many bytes as the length field says (R51). -/
theorem isFrame_shape {m : List Byte} (h : isFrame m = true) :
    ∃ len ty rest, m = SYNC :: len :: ty :: rest ∧ rest.length = len.toNat := by
  match m, h with
  | sync :: len :: [], h => simp [isFrame, totalLen] at h
  | sync :: len :: ty :: rest, h =>
    simp only [isFrame, Bool.and_eq_true, decide_eq_true_eq] at h
    have hl := h.2
    simp only [totalLen, LEN_OVERHEAD_eq, List.length_cons] at hl
    exact ⟨len, ty, rest, by rw [h.1], by omega⟩

theorem isFrame_of_shape {len ty : Byte} {rest : List Byte} (h : rest.length = len.toNat) :
    isFrame (SYNC :: len :: ty :: rest) = true := by
  simp [isFrame, totalLen, h]

theorem isFrame_length {m : List Byte} (h : isFrame m = true) : 3 ≤ m.length ∧ m.length ≤ 258 := by
  obtain ⟨len, ty, rest, rfl, hr⟩ := isFrame_shape h
  have := len.isLt
  simp only [List.length_cons]
  omega

/-- A whole frame is a HEIGHT frame, a STATUS frame, or neither by its bytes `m[1]` and `m[2]` (R52, R91). -/
theorem isFrame_cases {m : List Byte} (h : isFrame m = true) :
    (∃ p0 p1 p2 p3 m7 m8 trailer, m = [SYNC, H_LEN, H_TYPE, p0, p1, p2, p3, m7, m8, trailer])
    ∨ (∃ v1 v2 m5 trailer, m = [SYNC, S_LEN, S_TYPE, v1, v2, m5, trailer])
    ∨ (∃ len ty rest, m = SYNC :: len :: ty :: rest ∧ rest.length = len.toNat
        ∧ ¬(len = H_LEN ∧ ty = H_TYPE) ∧ ¬(len = S_LEN ∧ ty = S_TYPE)) := by
  obtain ⟨len, ty, rest, rfl, hr⟩ := isFrame_shape h
  by_cases hH : len = H_LEN ∧ ty = H_TYPE
  · obtain ⟨rfl, rfl⟩ := hH
    have hr : rest.length = 7 := by simpa using hr
    match rest, hr with
    | [a, b, c, d, e, f, g], _ => exact .inl ⟨a, b, c, d, e, f, g, rfl⟩
  by_cases hS : len = S_LEN ∧ ty = S_TYPE
  · obtain ⟨rfl, rfl⟩ := hS
    have hr : rest.length = 4 := by simpa using hr
    match rest, hr with
    | [a, b, c, d], _ => exact .inr (.inl ⟨a, b, c, d, rfl⟩)
  · exact .inr (.inr ⟨len, ty, rest, rfl, hr, hH, hS⟩)

/-- Behind a marker at the head there is a suspended scan or a whole frame (R79, R81, R82). -/
theorem suspended_or_frame (r : List Byte) :
    suspended (SYNC :: r) = true ∨ ∃ f rest, isFrame f = true ∧ SYNC :: r = f ++ rest := by
  match r with
  | [] => exact .inl (by simp [suspended])
  | len :: r =>
    by_cases h : (SYNC :: len :: r).length < totalLen len
    · exact .inl (by simpa [suspended] using h)
    · right
      simp only [totalLen, LEN_OVERHEAD_eq, List.length_cons, Nat.not_lt] at h
      obtain ⟨ty, r, rfl⟩ : ∃ ty r', r = ty :: r' := by
        match r, h with
        | [], h => simp at h
        | a :: b, _ => exact ⟨a, b, rfl⟩
      refine ⟨SYNC :: len :: ty :: r.take len.toNat, r.drop len.toNat, isFrame_of_shape ?_, by simp⟩
      simp only [List.length_cons] at h
      simp only [List.length_take]
      omega

theorem suspended_head {m : List Byte} (h : suspended m = true) : ∃ r, m = SYNC :: r := by
  match m, h with
  | [sync], h => exact ⟨[], by simpa [suspended] using h⟩
  | sync :: len :: r, h =>
    simp only [suspended, Bool.and_eq_true, decide_eq_true_eq] at h
    exact ⟨len :: r, by rw [h.1]⟩

theorem suspended_length {m : List Byte} (h : suspended m = true) : m.length ≤ 257 := by
  match m, h with
  | [sync], _ => simp
  | sync :: len :: r, h =>
    simp only [suspended, Bool.and_eq_true, decide_eq_true_eq] at h
    have hl := h.2
    have := len.isLt
    simp only [totalLen, LEN_OVERHEAD_eq] at hl
    omega

/-! ## The classifier -/

theorem classifyFrame_height (p : Params) (p0 p1 p2 p3 m7 m8 trailer : Byte) :
    classifyFrame p [SYNC, H_LEN, H_TYPE, p0, p1, p2, p3, m7, m8, trailer] = .ok (heightBranch p p0 p1 p2 p3) := rfl

theorem classifyFrame_status (p : Params) (v1 v2 m5 trailer : Byte) :
    classifyFrame p [SYNC, S_LEN, S_TYPE, v1, v2, m5, trailer] = .ok (statusBranch v1 v2) := rfl

theorem classifyFrame_unknown (p : Params) {sync len ty : Byte} (rest : List Byte) (hH : ¬(len = H_LEN ∧ ty = H_TYPE))
    (hS : ¬(len = S_LEN ∧ ty = S_TYPE)) :
    classifyFrame p (sync :: len :: ty :: rest) = .ok (unknownBranch len ty rest.dropLast) := by
  have h1 : readByte (sync :: len :: ty :: rest) 1 = .ok len := rfl
  have h2 : readByte (sync :: len :: ty :: rest) 2 = .ok ty := rfl
  have h3 : readSlice (sync :: len :: ty :: rest) 3 (max 3 ((sync :: len :: ty :: rest).length - 1)) = .ok rest.dropLast := by
    cases rest with
    | nil => rfl
    | cons a r =>
      have hb : ¬ max 3 ((sync :: len :: ty :: a :: r).length - 1) ≤ 3 ∨ r = [] := by
        cases r <;> simp
      rcases hb with hb | rfl
      · rw [readSlice, if_neg hb, readSpan_ok (by simp at hb ⊢; omega)]
        simp only [List.drop_succ_cons, List.drop_zero, List.length_cons, List.dropLast_eq_take, Except.ok.injEq]
        congr 1
      · rfl
  rw [classifyFrame, if_neg (by simpa using fun _ => not_and.mp hH), if_neg (by simpa using fun _ => not_and.mp hS), h1, h2, h3]
  rfl

/-- The classifier never faults on a whole frame, and emits at most one event (R88 to R91). -/
theorem classifyFrame_ok (p : Params) {m : List Byte} (h : isFrame m = true) :
    ∃ es, classifyFrame p m = .ok es ∧ es.length ≤ 1 := by
  obtain ⟨p0, p1, p2, p3, m7, m8, t, rfl⟩ | ⟨v1, v2, m5, t, rfl⟩ | ⟨len, ty, rest, rfl, hr, hH, hS⟩ := isFrame_cases h
  · refine ⟨_, classifyFrame_height .., ?_⟩
    unfold heightBranch heightEvents
    split <;> simp
  · exact ⟨_, classifyFrame_status .., by simp [statusBranch]⟩
  · exact ⟨_, classifyFrame_unknown p rest hH hS, by simp [unknownBranch]⟩

/-- The orphan classifier on a span of at least five bytes that passes the short-form test, and on any other span (R93). -/
theorem classifyOrphan_short (d0 d1 d2 : Byte) {rest : List Byte} (h : 3 ≤ rest.length) :
    classifyOrphan (SF_B0 :: SF_B1 :: d0 :: d1 :: d2 :: rest) = .ok (shortBranch d0 d1 d2) := by
  rw [classifyOrphan, if_pos ⟨by simp; omega, rfl, rfl⟩]
  rfl

theorem classifyOrphan_cases (b : List Byte) :
    (∃ d0 d1 d2 rest, b = SF_B0 :: SF_B1 :: d0 :: d1 :: d2 :: rest ∧ 3 ≤ rest.length
      ∧ classifyOrphan b = .ok (shortBranch d0 d1 d2))
    ∨ ((∀ d0 d1 d2 rest, b = SF_B0 :: SF_B1 :: d0 :: d1 :: d2 :: rest → ¬ 3 ≤ rest.length) ∧ classifyOrphan b = .ok []) := by
  by_cases h : SF_MIN ≤ b.length ∧ b[0]? = some SF_B0 ∧ b[1]? = some SF_B1
  · left
    match b, h with
    | b0 :: b1 :: d0 :: d1 :: d2 :: rest, ⟨hl, h0, h1⟩ =>
      simp only [List.getElem?_cons_zero, List.getElem?_cons_succ, Option.some.injEq] at h0 h1
      simp only [SF_MIN_eq, List.length_cons] at hl
      subst h0 h1
      exact ⟨d0, d1, d2, rest, rfl, by omega, classifyOrphan_short d0 d1 d2 (by omega)⟩
    | [], ⟨hl, _⟩ | [_], ⟨hl, _⟩ | [_, _], ⟨hl, _⟩ | [_, _, _], ⟨hl, _⟩ | [_, _, _, _], ⟨hl, _⟩ => simp at hl
  · refine .inr ⟨?_, by rw [classifyOrphan, if_neg h]⟩
    rintro d0 d1 d2 rest rfl hr
    exact h ⟨by simp; omega, rfl, rfl⟩

/-- The orphan classifier never faults, and emits at most one event (R93). -/
theorem classifyOrphan_ok (b : List Byte) : ∃ es, classifyOrphan b = .ok es ∧ es.length ≤ 1 := by
  obtain ⟨d0, d1, d2, rest, -, -, h⟩ | ⟨-, h⟩ := classifyOrphan_cases b
  · refine ⟨_, h, ?_⟩
    unfold shortBranch heightEvents
    split <;> simp
  · exact ⟨_, h, by simp⟩

/-! ## One iteration -/

theorem frameStep_suspended (p : Params) {m : Memory} (h : suspended m = true) :
    frameStep p m = .ok { buf := m, events := [], again := false } := by
  match m, h with
  | [sync], _ => rfl
  | sync :: len :: r, h =>
    simp only [suspended, Bool.and_eq_true, decide_eq_true_eq] at h
    have h1 : readByte (sync :: len :: r) 1 = .ok len := rfl
    rw [frameStep, if_neg (by simp), h1]
    simp only [bind, Except.bind, if_pos h.2]

theorem frameStep_frame (p : Params) {f : List Byte} (rest : Memory) {es : List Event} (h : isFrame f = true)
    (hc : classifyFrame p f = .ok es) :
    frameStep p (f ++ rest) = .ok { buf := rest, events := es, again := true } := by
  obtain ⟨len, ty, r, rfl, hr⟩ := isFrame_shape h
  have h1 : readByte (SYNC :: len :: ty :: r ++ rest) 1 = .ok len := rfl
  have hl : totalLen len = (SYNC :: len :: ty :: r).length := by simp [totalLen, hr]
  rw [frameStep, if_neg (by simp), h1]
  simp only [bind, Except.bind]
  rw [hl, if_neg (by simp), readSpan_ok (by simp)]
  simp only [List.drop_zero, List.take_left, hc, Memory.dropHead, List.drop_left]

/-- Step 3 never faults: the span's events and, when DIAG_ENABLE, its diagnostic; the marker is then at the head (R78). -/
theorem orphanStep_ok (p : Params) (b r : List Byte) :
    ∃ es, (if b = [] then es = [] else ∃ eb, classifyOrphan b = .ok eb ∧ es = eb ++ diagEvents p .orphan b.length)
      ∧ orphanStep p (b ++ r) b.length = .ok (r, es) := by
  by_cases hb : b = []
  · subst hb
    exact ⟨[], by simp, rfl⟩
  · obtain ⟨eb, he, -⟩ := classifyOrphan_ok b
    have h0 : b.length ≠ 0 := by simpa using hb
    refine ⟨_, by rw [if_neg hb]; exact ⟨eb, he, rfl⟩, ?_⟩
    rw [orphanStep, if_neg h0, readSpan_ok (by simp)]
    simp only [bind, Except.bind, List.drop_zero, List.take_left, he, Memory.dropHead, List.drop_left]

/-- The events of step 3 for the bytes `b` before the marker: none when there are none (R78, R117). -/
def orphanEvents (p : Params) (b : List Byte) : List Event :=
  if b = [] then []
  else (match classifyOrphan b with
    | .ok es => es
    | .error _ => []) ++ diagEvents p .orphan b.length

@[simp] theorem orphanEvents_nil (p : Params) : orphanEvents p [] = [] := rfl

theorem orphanEvents_of_ok {p : Params} {b : List Byte} {es : List Event} (hb : b ≠ []) (h : classifyOrphan b = .ok es) :
    orphanEvents p b = es ++ diagEvents p .orphan b.length := by
  rw [orphanEvents, if_neg hb, h]

theorem orphanStep_eq (p : Params) (b r : List Byte) : orphanStep p (b ++ r) b.length = .ok (r, orphanEvents p b) := by
  obtain ⟨es, he, h⟩ := orphanStep_ok p b r
  rw [h]
  by_cases hb : b = []
  · simp only [hb, if_true] at he
    simp [hb, he]
  · rw [if_neg hb] at he
    obtain ⟨eb, h1, rfl⟩ := he
    rw [orphanEvents_of_ok hb h1]

theorem scanIteration_short (p : Params) {m : Memory} (h : m.length < 6) :
    scanIteration p m = .ok { buf := m, events := [], again := false } := by
  rw [scanIteration, if_pos (by simpa using h)]

theorem scanIteration_noSync (p : Params) {m : Memory} (h : 6 ≤ m.length) (hs : SYNC ∉ m) :
    scanIteration p m = .ok { buf := [], events := diagEvents p .noSync m.length, again := false } := by
  rw [scanIteration, if_neg (by simpa using h), (firstOffset_none_iff m SYNC).mpr hs]
  rfl

theorem scanIteration_suspended (p : Params) {b m : Memory} (h : 6 ≤ (b ++ m).length) (hb : SYNC ∉ b)
    (hm : suspended m = true) :
    scanIteration p (b ++ m) = .ok { buf := m, events := orphanEvents p b, again := false } := by
  obtain ⟨r, rfl⟩ := suspended_head hm
  rw [scanIteration, if_neg (by simpa using h), firstOffset_append_cons r hb]
  simp only [bind, Except.bind, orphanStep_eq, frameStep_suspended p hm, List.append_nil]

theorem scanIteration_frame (p : Params) {b f : List Byte} (rest : Memory) {es : List Event} (h : 6 ≤ (b ++ f ++ rest).length)
    (hb : SYNC ∉ b) (hf : isFrame f = true) (hc : classifyFrame p f = .ok es) :
    scanIteration p (b ++ f ++ rest) = .ok { buf := rest, events := orphanEvents p b ++ es, again := true } := by
  obtain ⟨len, ty, r, rfl, hr⟩ := isFrame_shape hf
  rw [List.append_assoc] at h ⊢
  rw [scanIteration, if_neg (by simpa using h), List.cons_append, firstOffset_append_cons _ hb]
  simp only [bind, Except.bind, orphanStep_eq]
  have := frameStep_frame p rest hf hc
  simp only [List.cons_append] at this ⊢
  rw [this]

/-- The four things BUF can be at the top of an iteration. -/
theorem scan_shape (m : Memory) :
    m.length < 6
    ∨ (6 ≤ m.length ∧ SYNC ∉ m)
    ∨ (∃ b r, m = b ++ r ∧ 6 ≤ (b ++ r).length ∧ SYNC ∉ b ∧ suspended r = true)
    ∨ (∃ b f rest, m = b ++ f ++ rest ∧ 6 ≤ (b ++ f ++ rest).length ∧ SYNC ∉ b ∧ isFrame f = true) := by
  by_cases h : m.length < 6
  · exact .inl h
  right
  cases ho : firstOffset m SYNC with
  | none => exact .inl ⟨by omega, (firstOffset_none_iff m SYNC).mp ho⟩
  | some k =>
    right
    obtain ⟨b, r, rfl, hb, -⟩ := firstOffset_some ho
    obtain hs | ⟨f, rest, hf, he⟩ := suspended_or_frame r
    · exact .inl ⟨b, SYNC :: r, rfl, by omega, hb, hs⟩
    · refine .inr ⟨b, f, rest, by rw [he, List.append_assoc], ?_, hb, hf⟩
      rw [List.append_assoc, ← he]
      omega

/-! ## The whole scan -/

/-- More allowed iterations give the same result. -/
theorem scanLoop_mono (p : Params) {n : Nat} {m : Memory} {r : Memory × List Event} (h : scanLoop p n m = .ok r) (k : Nat) :
    scanLoop p (n + k) m = .ok r := by
  induction n generalizing m r with
  | zero => simp [scanLoop] at h
  | succ n ih =>
    rw [Nat.succ_add]
    simp only [scanLoop, bind, Except.bind] at h ⊢
    cases hi : scanIteration p m with
    | error e => simp [hi] at h
    | ok s =>
      simp only [hi] at h ⊢
      by_cases hag : s.again = true
      · simp only [hag, if_true] at h ⊢
        cases hl : scanLoop p n s.buf with
        | error e => simp [hl] at h
        | ok q =>
          rw [ih hl]
          simpa [hl] using h
      · simpa [hag] using h

/-- The scan of what is left never needs more iterations than the bound of the whole (R84). -/
theorem scanLoop_of_scan (p : Params) {m : Memory} {r : Memory × List Event} (h : scan p m = .ok r) {n : Nat}
    (hn : m.length / 3 + 1 ≤ n) : scanLoop p n m = .ok r := by
  obtain ⟨k, rfl⟩ := Nat.exists_eq_add_of_le hn
  exact scanLoop_mono p h k

theorem scan_of_stop (p : Params) {m : Memory} {s : ScanStep} (h : scanIteration p m = .ok s) (hs : s.again = false) :
    scan p m = .ok (s.buf, s.events) := by
  simp [scan, scanLoop, h, hs, bind, Except.bind]

theorem scan_of_again (p : Params) {m : Memory} {s : ScanStep} (h : scanIteration p m = .ok s) (hs : s.again = true)
    (hl : s.buf.length + 3 ≤ m.length) {r : Memory × List Event} (hr : scan p s.buf = .ok r) :
    scan p m = .ok (r.1, s.events ++ r.2) := by
  have := scanLoop_of_scan p hr (n := m.length / 3) (by omega)
  simp [scan, scanLoop, h, hs, this, bind, Except.bind]

theorem scan_short (p : Params) {m : Memory} (h : m.length < 6) : scan p m = .ok (m, []) :=
  scan_of_stop p (scanIteration_short p h) rfl

theorem scan_noSync (p : Params) {m : Memory} (h : 6 ≤ m.length) (hs : SYNC ∉ m) :
    scan p m = .ok ([], diagEvents p .noSync m.length) :=
  scan_of_stop p (scanIteration_noSync p h hs) rfl

theorem scan_suspended (p : Params) {b m : Memory} (h : 6 ≤ (b ++ m).length) (hb : SYNC ∉ b) (hm : suspended m = true) :
    scan p (b ++ m) = .ok (m, orphanEvents p b) :=
  scan_of_stop p (scanIteration_suspended p h hb hm) rfl

theorem scan_frame (p : Params) {b f : List Byte} {rest : Memory} {es er : List Event} {r : Memory}
    (h : 6 ≤ (b ++ f ++ rest).length) (hb : SYNC ∉ b) (hf : isFrame f = true) (hc : classifyFrame p f = .ok es)
    (hr : scan p rest = .ok (r, er)) :
    scan p (b ++ f ++ rest) = .ok (r, orphanEvents p b ++ es ++ er) := by
  have hl := (isFrame_length hf).1
  exact scan_of_again p (scanIteration_frame p rest h hb hf hc) rfl (by simp; omega) hr

/-- The induction of the scan: a property of every BUF holds if it holds of one too short to scan, of one without a marker, of
one on which the scan suspends, and of one with a frame when it holds of what follows the frame. -/
theorem scan_induction {P : Memory → Prop} (short : ∀ m : Memory, m.length < 6 → P m)
    (noSync : ∀ m : Memory, 6 ≤ m.length → SYNC ∉ m → P m)
    (suspend : ∀ b m : Memory, 6 ≤ (b ++ m).length → SYNC ∉ b → suspended m = true → P (b ++ m))
    (frame : ∀ b f rest : Memory, 6 ≤ (b ++ f ++ rest).length → SYNC ∉ b → isFrame f = true → P rest → P (b ++ f ++ rest))
    (m : Memory) : P m := by
  induction hn : m.length using Nat.strong_induction_on generalizing m with
  | _ n ih =>
    obtain h | ⟨h, hs⟩ | ⟨b, r, rfl, h, hb, hr⟩ | ⟨b, f, rest, rfl, h, hb, hf⟩ := scan_shape m
    · exact short m h
    · exact noSync m h hs
    · exact suspend b r h hb hr
    · refine frame b f rest h hb hf (ih rest.length ?_ rest rfl)
      have := (isFrame_length hf).1
      simp only [List.length_append] at hn
      omega

/-- SCAN always ends with a result (R84). -/
theorem scan_total (p : Params) (m : Memory) : ∃ r es, scan p m = .ok (r, es) := by
  induction m using scan_induction with
  | short m h => exact ⟨_, _, scan_short p h⟩
  | noSync m h hs => exact ⟨_, _, scan_noSync p h hs⟩
  | suspend b m h hb hm => exact ⟨_, _, scan_suspended p h hb hm⟩
  | frame b f rest h hb hf ih =>
    obtain ⟨r, er, hr⟩ := ih
    obtain ⟨es, hc, -⟩ := classifyFrame_ok p hf
    exact ⟨_, _, scan_frame p h hb hf hc hr⟩

/-- END, once SCAN's result is known (R69). -/
theorem execEndChunk_of_scan {s : State} {r : Memory} {es : List Event} (h : scan s.params s.buf = .ok (r, es)) :
    execEndChunk s = .next ((s.setBuf r).emit es) := by
  simp [execEndChunk, h]

end Sys2Proof.Machine
end

