-- ==== Sys2Proof/Laws/Step.lean ====
section
/-! SUPPORT. What one instruction and one step can do, said once: the inversion lemmas from which invariants and frames follow. -/

namespace Sys2Proof.Machine

open Config

/-! ## Whole records in the output stage -/

theorem wireBytes_closed (r : List Byte) : stageClosed (wireBytes r) = true := by
  induction r using wireBytes.induct with
  | case1 => rfl
  | case2 => rfl
  | case3 b c r ih =>
    obtain ⟨x, xs, hx⟩ : ∃ x xs, wireBytes (c :: r) = x :: xs := by cases r <;> exact ⟨_, _, rfl⟩
    rw [hx] at ih
    rw [wireBytes, hx]
    simpa [stageClosed, List.getLast?_cons_cons] using ih

theorem stageClosed_append {a b : List EvtByte} (ha : stageClosed a = true) (hb : stageClosed b = true) :
    stageClosed (a ++ b) = true := by
  by_cases h : b = []
  · simp [h, ha]
  · have hx : b.getLast? = some (b.getLast h) := List.getLast?_eq_some_getLast h
    simp only [stageClosed, List.getLast?_append, hx] at hb ⊢
    simpa using hb

theorem wireEvents_closed (es : List Event) : stageClosed (wireEvents es) = true := by
  induction es with
  | nil => rfl
  | cons e es ih => exact stageClosed_append (wireBytes_closed e.record) ih

/-- The invariant, part by part. -/
theorem State.inv_iff (s : State) :
    s.inv = true ↔ s.params.wf = true ∧ s.buf.length ≤ s.params.bufCap ∧ stageClosed s.evtStage = true := by
  simp [State.inv, Memory.wf, and_assoc]

/-! ## SCAN drops bytes from the head only (R20) -/

theorem scan_suffix {p : Params} {m r : Memory} {es : List Event} (h : scan p m = .ok (r, es)) : r <:+ m := by
  induction m using scan_induction generalizing r es with
  | short m hm => rw [scan_short p hm] at h; cases h; exact List.suffix_refl _
  | noSync m hm hs => rw [scan_noSync p hm hs] at h; cases h; exact List.nil_suffix
  | suspend b m hm hb hs => rw [scan_suspended p hm hb hs] at h; cases h; exact List.suffix_append _ _
  | frame b f rest hm hb hf ih =>
    obtain ⟨q, er, hr⟩ := scan_total p rest
    obtain ⟨ec, hc, -⟩ := classifyFrame_ok p hf
    rw [scan_frame p hm hb hf hc hr] at h
    cases h
    exact (ih hr).trans (List.suffix_append _ _)

/-! ## One instruction -/

/-- Everything an instruction can do when it answers a next state, format by format. -/
theorem exec_next_cases {i : Instr} {s t : State} (h : exec i s = .next t) :
    (∃ b, i = .push b ∧ t = s.pushByte b)
    ∨ (i = .endChunk ∧ ∃ r es, scan s.params s.buf = .ok (r, es) ∧ t = (s.setBuf r).emit es)
    ∨ (i = .reset ∧ t = s.clearBuf)
    ∨ ((∃ d, i = .reserved01 d ∨ i = .reserved10 d ∨ i = .reserved11 d) ∧ t = s)
    ∨ ((i.format = .frame ∨ i.format = .short ∨ i.format = .evrec) ∧ ∃ bs, stageClosed bs = true ∧ t = s.stageBytes bs)
    ∨ (i.format = .seg7 ∧ ∃ r, t = s.outDigit r) := by
  cases i
  case push b => cases h; exact .inl ⟨b, rfl, rfl⟩
  case endChunk =>
    obtain ⟨r, es, hs⟩ := scan_total s.params s.buf
    rw [exec, execEndChunk_of_scan hs] at h
    cases h
    exact .inr (.inl ⟨rfl, r, es, hs, rfl⟩)
  case reset => cases h; exact .inr (.inr (.inl ⟨rfl, rfl⟩))
  case reserved01 d => cases h; exact .inr (.inr (.inr (.inl ⟨⟨d, .inl rfl⟩, rfl⟩)))
  case reserved10 d => cases h; exact .inr (.inr (.inr (.inl ⟨⟨d, .inr (.inl rfl)⟩, rfl⟩)))
  case reserved11 d => cases h; exact .inr (.inr (.inr (.inl ⟨⟨d, .inr (.inr rfl)⟩, rfl⟩)))
  case evDiag r c =>
    refine .inr (.inr (.inr (.inr (.inl ⟨.inr (.inr rfl), ?_⟩))))
    simp only [exec, execEvDiag] at h
    split at h
    · cases h; exact ⟨_, wireBytes_closed _, rfl⟩
    · cases h; exact ⟨[], rfl, by simp⟩
  all_goals cases h
  any_goals exact .inr (.inr (.inr (.inr (.inr ⟨rfl, _, rfl⟩))))
  any_goals exact .inr (.inr (.inr (.inr (.inl ⟨.inl rfl, _, wireEvents_closed _, rfl⟩))))
  any_goals exact .inr (.inr (.inr (.inr (.inl ⟨.inr (.inl rfl), _, wireEvents_closed _, rfl⟩))))
  any_goals exact .inr (.inr (.inr (.inr (.inl ⟨.inr (.inr rfl), _, wireBytes_closed _, rfl⟩))))

/-! ## Line levels -/

theorem State.linesNow_eq_linesAt (s : State) : s.linesNow = s.linesAt 0 := by
  cases h : s.lines <;> simp [State.linesNow, State.linesAt, h]

@[simp] theorem State.dropLines_linesAt (s : State) (k : Nat) : s.dropLines.linesAt k = s.linesAt (k + 1) := by
  simp [State.linesAt]

/-- Where every scheduled level is `l` and so is the one that stays, every step ahead has `l`. -/
theorem State.linesAt_of_forall {s : State} {l : Lines} (h : ∀ x ∈ s.lines, x = l) (ha : s.linesAfter = l) (k : Nat) :
    s.linesAt k = l := by
  simp only [State.linesAt, List.getD_eq_getElem?_getD]
  cases hk : s.lines[k]? with
  | none => exact ha
  | some x => exact h x (List.mem_of_getElem? hk)

/-! ## One step -/

/-- Everything a step can do: a reset, a byte taken, nothing, or a word accepted. -/
theorem step_cases (s : State) :
    (s.linesNow.rst = true ∧ step s = .next s.dropLines.hardwareReset)
    ∨ (s.linesNow.rst = false ∧ s.linesNow.evtReady = true ∧ (∃ b bs, s.evtStage = b :: bs)
        ∧ step s = .next s.dropLines.takeByte)
    ∨ (s.linesNow.rst = false
        ∧ (s.linesNow.evtReady = false ∧ (∃ b bs, s.evtStage = b :: bs) ∨ s.evtStage = [] ∧ s.input = [])
        ∧ step s = .next s.dropLines)
    ∨ (s.linesNow.rst = false ∧ s.evtStage = [] ∧ ∃ c cs, s.input = c :: cs
        ∧ ((∃ i, decode c = .ok i ∧ step s = exec i s.dropLines.dropInput)
          ∨ ∃ e, decode c = .error e ∧ step s = rejectWord e s.dropLines.dropInput)) := by
  unfold step
  by_cases hr : s.linesNow.rst = true
  · simp [hr]
  · right
    simp only [Bool.not_eq_true] at hr
    simp only [hr, Bool.false_eq_true, if_false]
    cases hs : s.evtStage with
    | cons b bs => by_cases he : s.linesNow.evtReady = true <;> simp_all
    | nil =>
      cases hi : s.input with
      | nil => simp
      | cons c cs =>
        cases hd : decode c with
        | ok i => exact .inr (.inr ⟨trivial, rfl, c, cs, rfl, .inl ⟨i, hd, by simp [hd]⟩⟩)
        | error e => exact .inr (.inr ⟨trivial, rfl, c, cs, rfl, .inr ⟨e, hd, by simp [hd]⟩⟩)

theorem execAll_append {is js : List Instr} {s t : State} (h : execAll is s = .next t) : execAll (is ++ js) s = execAll js t := by
  induction is generalizing s with
  | nil => cases h; rfl
  | cons i is ih =>
    simp only [execAll, List.cons_append] at h ⊢
    cases hi : exec i s with
    | next u => rw [hi] at h; exact ih h
    | fault f => rw [hi] at h; cases h
    | refused f => rw [hi] at h; cases h

end Sys2Proof.Machine
end

