-- ==== Sys2Proof/Laws/WellFormed.lean ====
section
/-! SUPPORT. The length checks of Instr.wf as plain equations, with the constants' values put in. -/

namespace Sys2Proof

open Config

/-- A well-formed UNKNOWN frame: as many bytes behind the type byte as the length field says, and neither other class (R51, R52). -/
theorem Instr.wf_unknown_iff (len ty : Byte) (rest : List Byte) :
    (Instr.unknown len ty rest).wf = true
      ↔ rest.length = len.toNat ∧ ¬(len = H_LEN ∧ ty = H_TYPE) ∧ ¬(len = S_LEN ∧ ty = S_TYPE) := by
  simp only [Instr.wf, Bool.and_eq_true, Bool.not_eq_true', decide_eq_true_eq, decide_eq_false_iff_not, List.length_cons,
    LEN_OVERHEAD_eq, and_assoc, Nat.add_right_cancel_iff]

/-- A well-formed EV_UNKNOWN record: a payload of `L - 1` bytes, none when `L = 0` (R55, R61). -/
theorem Instr.wf_evUnknown_iff (len ty : Byte) (payload : List Byte) :
    (Instr.evUnknown len ty payload).wf = true ↔ payload.length = len.toNat - 1 := by
  simp only [Instr.wf, decide_eq_true_eq, LEN_OVERHEAD_eq]
  omega

end Sys2Proof
end

