-- ==== Sys2Proof/Tests/Slice0.lean ====
section
/-! SUPPORT. The model's own tests. Expected results are those of spec/95_test_vectors.md, named by their ids there, or are written
out from the encodings of spec/30_encoding.md and spec/43_seven_segment.md. The last part gives, for each statement with
hypotheses, inputs that meet them. -/

namespace Sys2Proof.Tests

open Sys2Proof.Machine Sys2Proof.Config

/-! ## Small states -/

/-- The reset state with this BUF. -/
def withBuf (m : List Byte) : State := State.reset.setBuf m

/-- The reset state with this BUF in a build with DIAG_ENABLE. -/
def withBufDiag (m : List Byte) : State := { withBuf m with params := { Params.default with diagEnable := true } }

/-- The smallest legal build: BUF_CAP = 258. -/
def smallParams : Params := { Params.default with bufCap := 258 }

/-- The next state, if there is one. -/
def nextOf (o : Host.Outcome State Fault Refusal) : Option State :=
  match o with
  | .next t => some t
  | _ => none

theorem next_of (o : Host.Outcome State Fault Refusal) (t : State) (h : nextOf o = some t) : o = .next t := by
  cases o <;> simp_all [nextOf]

/-! ## WellFormed: for each check an ill-formed term, and the terms at the checks' bounds -/

theorem test_wf_reserved : (Instr.reserved01 0).wf = false ∧ (Instr.reserved10 0).wf = false
    ∧ (Instr.reserved01 1).wf = true ∧ (Instr.reserved10 255).wf = true := by decide

theorem test_wf_unknown_length : (Instr.unknown 2 0x55 [0x66]).wf = false ∧ (Instr.unknown 2 0x55 [0x66, 0x77]).wf = true
    ∧ (Instr.unknown 0 0xAA []).wf = true := by decide

theorem test_wf_unknown_class : (Instr.unknown 0x07 0x12 [0, 0, 0, 0, 0, 0, 0]).wf = false
    ∧ (Instr.unknown 0x04 0x11 [0, 0, 0, 0]).wf = false ∧ (Instr.unknown 0x07 0x11 [0, 0, 0, 0, 0, 0, 0]).wf = true
    ∧ (Instr.unknown 0x04 0x12 [0, 0, 0, 0]).wf = true := by decide

theorem test_wf_short : (Instr.shortHeight 0x86 0xDB 0x4F [0, 0]).wf = false
    ∧ (Instr.shortHeight 0x86 0xDB 0x4F [0, 0, 0x9B]).wf = false ∧ (Instr.shortHeight 0x9B 0xDB 0x4F [0, 0, 0]).wf = false
    ∧ (Instr.shortHeight 0x86 0xDB 0x4F [0, 0, 0]).wf = true := by decide

theorem test_wf_seg_invalid : (Instr.segInvalid true 0b0111111).wf = false ∧ (Instr.segInvalid false 0b1101111).wf = false
    ∧ (Instr.segInvalid false 0).wf = false ∧ (Instr.segInvalid true 0).wf = true
    ∧ (Instr.segInvalid false 0b1100011).wf = true := by decide

theorem test_wf_ev_height : (Instr.evHeight 10000 0).wf = false ∧ (Instr.evHeight 0 4).wf = false
    ∧ (Instr.evHeight 9999 3).wf = true := by decide

theorem test_wf_ev_unknown : (Instr.evUnknown 2 0x55 []).wf = false ∧ (Instr.evUnknown 0 0xAA [0x00]).wf = false
    ∧ (Instr.evUnknown 2 0x55 [0x66]).wf = true ∧ (Instr.evUnknown 0 0xAA []).wf = true := by decide

theorem test_wf_ev_diag : (Instr.evDiag 3 6).wf = false ∧ (Instr.evDiag 1 0).wf = false ∧ (Instr.evDiag 2 1).wf = true := by decide

/-! ## Decoding: words written out from the spec's encodings -/

/-- R48, R49: `op` in bits 9:8, `data` in bits 7:0. -/
theorem test_decode_hcw : decode (.hcw 0b0010011011) = .ok (.push 0x9B) ∧ decode (.hcw 0b0100000000) = .ok .endChunk
    ∧ decode (.hcw 0b1000000000) = .ok .reset ∧ decode (.hcw 0b0100000001) = .ok (.reserved01 0x01)
    ∧ decode (.hcw 0b1010000000) = .ok (.reserved10 0x80) ∧ decode (.hcw 0b1100000000) = .ok (.reserved11 0x00) :=
  ⟨rfl, rfl, rfl, rfl, rfl, rfl⟩

/-- R51 to R55; the frames are CF1, CF5, CF8, CF9, CF10. -/
theorem test_decode_frame :
    decode (.frame [0x9B, 0x07, 0x12, 0x06, 0x3F, 0x66, 0x63, 0xE5, 0x00, 0x01])
        = .ok (.height 0x06 0x3F 0x66 0x63 0xE5 0x00 0x01)
    ∧ decode (.frame [0x9B, 0x04, 0x11, 0xAA, 0x55, 0xCC, 0x77]) = .ok (.status 0xAA 0x55 0xCC 0x77)
    ∧ decode (.frame [0x9B, 0x04, 0x12, 0x01, 0x02, 0x03, 0x04]) = .ok (.unknown 0x04 0x12 [0x01, 0x02, 0x03, 0x04])
    ∧ decode (.frame [0x9B, 0x00, 0xAA]) = .ok (.unknown 0x00 0xAA [])
    ∧ decode (.frame [0x9B, 0x01, 0xAA, 0xBB]) = .ok (.unknown 0x01 0xAA [0xBB]) := ⟨rfl, rfl, rfl, rfl, rfl⟩

/-- R56. -/
theorem test_decode_short :
    decode (.short [0x07, 0x12, 0x86, 0xDB, 0x4F, 0x01, 0x02, 0x03]) = .ok (.shortHeight 0x86 0xDB 0x4F [0x01, 0x02, 0x03]) := rfl

/-- R57, R95, R97, R98: bit 7 the point, bits 6:0 the code. -/
theorem test_decode_seg7 :
    decodeSeg7 0b00000000 = .segBlank ∧ decodeSeg7 0b00111111 = .seg0 false ∧ decodeSeg7 0b10000110 = .seg1 true
    ∧ decodeSeg7 0b01011011 = .seg2 false ∧ decodeSeg7 0b11001111 = .seg3 true ∧ decodeSeg7 0b01100110 = .seg4 false
    ∧ decodeSeg7 0b11101101 = .seg5 true ∧ decodeSeg7 0b01111101 = .seg6 false ∧ decodeSeg7 0b10000111 = .seg7 true
    ∧ decodeSeg7 0b01111111 = .seg8 false ∧ decodeSeg7 0b11101111 = .seg9 true
    ∧ decodeSeg7 0b10011011 = .segInvalid true 0b0011011 ∧ decodeSeg7 0b10000000 = .segInvalid true 0 := by decide

/-- R59 to R62; the records are those of V-EVREC. -/
theorem test_decode_evrec :
    decode (.evrec [0x01, 0x04, 0x19, 0x02]) = .ok (.evHeight 1049 2)
    ∧ decode (.evrec [0x02, 0xAA, 0x55]) = .ok (.evStatus 0xAA 0x55)
    ∧ decode (.evrec [0x03, 0x02, 0x55, 0x01, 0x66]) = .ok (.evUnknown 0x02 0x55 [0x66])
    ∧ decode (.evrec [0x04, 0x01, 0x02, 0x00]) = .ok (.evDiag 0x01 512) := ⟨rfl, rfl, rfl, rfl⟩

/-- Words with no row are rejected by name. -/
theorem test_decode_rejects :
    decode (.frame [0x9A, 0x00, 0xAA]) = .error .notSync ∧ decode (.frame [0x9B, 0x01, 0xAA]) = .error .wrongLength
    ∧ decode (.short [0x07, 0x12, 0x9B]) = .error .syncInSpan ∧ decode (.short [0x07, 0x13, 6, 6, 6, 0, 0, 0]) = .error .notShortForm
    ∧ decode (.evrec [0x05]) = .error .badKind ∧ decode (.evrec [0x02, 0xAA]) = .error .badRecordLength :=
  ⟨rfl, rfl, rfl, rfl, rfl, rfl⟩

/-- V-HCW, in the table's numbering. -/
theorem test_table_hcw : decodeTableWord 16 0x09B = some (.push 0x9B) ∧ decodeTableWord 16 0x100 = some .endChunk
    ∧ decodeTableWord 16 0x200 = some .reset ∧ decodeTableWord 16 0x101 = some (.reserved01 1)
    ∧ decodeTableWord 16 0x280 = some (.reserved10 0x80) ∧ decodeTableWord 16 0x3FF = some (.reserved11 0xFF) := by decide

/-- The rows of the other formats, by their match words (`0x63` for the all-open SEG_INVALID row). -/
theorem test_table_units :
    decodeTableWord 24 0x9B0712 = some (.height 0 0 0 0 0 0 0) ∧ decodeTableWord 24 0x9B0411 = some (.status 0 0 0 0)
    ∧ decodeTableWord 24 0x9B0000 = some (.unknown 0 0 []) ∧ decodeTableWord 16 0x0712 = some (.shortHeight 0 0 0 [0, 0, 0])
    ∧ decodeTableWord 8 0x00 = some .segBlank ∧ decodeTableWord 8 0x3F = some (.seg0 false)
    ∧ decodeTableWord 8 0x63 = some (.segInvalid false 0x63) ∧ decodeTableWord 8 0x01 = some (.evHeight 0 0)
    ∧ decodeTableWord 8 0x02 = some (.evStatus 0 0) ∧ decodeTableWord 8 0x03 = some (.evUnknown 0 0 [])
    ∧ decodeTableWord 8 0x04 = some (.evDiag 0 0) := by decide

/-- The first step after reset runs the word placed. -/
theorem test_fetch_push : step (State.reset.withFetchWord 16 0x09B) = .next (withBuf [0x9B]) := rfl

theorem test_fetch_status : step (State.reset.withFetchWord 24 0x9B0411)
    = .next (State.reset.stageBytes [⟨0x02, false⟩, ⟨0x00, false⟩, ⟨0x00, true⟩]) := rfl

/-! ## Host commands (V-CMD) -/

/-- CM1. -/
theorem test_push : exec (.push 0x07) (withBuf [0x9B]) = .next (withBuf [0x9B, 0x07]) := rfl

/-- CM2. -/
theorem test_reset : exec .reset (withBuf [0x9B, 0x07]) = .next (withBuf []) := rfl

/-- CM4. -/
theorem test_reserved : exec (.reserved11 0xFF) (withBuf [0x9B, 0x07]) = .next (withBuf [0x9B, 0x07]) := rfl

/-- CM7. -/
theorem test_push_full :
    let s := { withBuf (0x9B :: 0xFF :: List.replicate 256 0) with params := smallParams }
    exec (.push 0x11) s = .next s := next_of _ _ (by decide +kernel)

/-! ## The scanner (V-SCAN), default build and DIAG_ENABLE -/

/-- S3. -/
theorem test_scan_orphan_then_suspend :
    exec .endChunk (withBufDiag [1, 2, 3, 4, 5, 0x9B]) = .next ((withBufDiag [0x9B]).emit [.diag .orphan 5]) := rfl

/-- S7. -/
theorem test_scan_short_frame :
    exec .endChunk (withBuf [0x07, 0x12, 6, 6, 6, 0x9B, 0, 0]) = .next ((withBuf []).emit [.unknown 0 0 []]) := rfl

/-- S8. -/
theorem test_scan_second_frame_waits :
    exec .endChunk (withBuf [0x9B, 0, 0, 0x9B, 0, 0]) = .next ((withBuf [0x9B, 0, 0]).emit [.unknown 0 0 []]) := rfl

/-- S11. -/
theorem test_scan_short_form :
    scan { Params.default with diagEnable := true } [0x07, 0x12, 0x06, 0x5B, 0x4F, 0, 0, 0, 0x9B]
      = .ok ([0x9B], [.height ⟨123, 0⟩, .diag .orphan 8]) := rfl

/-- S13. -/
theorem test_scan_seven_byte_orphan :
    scan { Params.default with diagEnable := true } [0x07, 0x12, 6, 6, 6, 0, 0, 0x9B, 0x04, 0x11, 0xAA, 0x55, 0xCC, 0x77]
      = .ok ([], [.diag .orphan 7, .status 0xAA 0x55]) := rfl

/-- S17. -/
theorem test_scan_largest_frame :
    nextOf (exec .endChunk (withBuf (0x9B :: 0xFF :: List.replicate 256 0)))
      = some ((withBuf []).emit [.unknown 0xFF 0 (List.replicate 254 0)]) := by decide +kernel

/-- P4: noise, then a frame that swallows another, then an orphan and a frame of five bytes. -/
theorem test_program_noise :
    nextOf (execAll (chunks [[0x11, 0x22, 0x33, 0x44, 0x55, 0x66], [0x9B, 5, 0xAA, 0xBB, 0x9B, 4, 0x11, 1, 2, 3, 4],
        [0x9B, 2, 0x55, 0x66, 0x77]]) (withBufDiag []))
      = some ((withBufDiag []).emit
          [.diag .noSync 6, .unknown 0x05 0xAA [0xBB, 0x9B, 4, 0x11], .diag .orphan 3, .unknown 2 0x55 [0x66]]) := by
  decide +kernel

/-- R133: the same bytes split before SYNC lose the short form. -/
theorem test_split_short_form :
    nextOf (execAll (chunk [7, 0x12, 0x86, 0xDB, 0x4F, 0, 0, 0, 0x9B, 4, 0x11, 0xAA, 0x55, 0xCC, 0x77]) (withBuf []))
        = some ((withBuf []).emit [.height ⟨123, 1⟩, .status 0xAA 0x55])
    ∧ nextOf (execAll (chunks [[7, 0x12, 0x86, 0xDB, 0x4F, 0, 0, 0], [0x9B, 4, 0x11, 0xAA, 0x55, 0xCC, 0x77]]) (withBuf []))
        = some ((withBuf []).emit [.status 0xAA 0x55]) := by
  decide +kernel

/-! ## The classifier's rows (V-CLS, V-EVREC) -/

/-- CF2: record `01 04 19 02`. -/
theorem test_height : exec (.height 0x06 0xBF 0x66 0x6F 0 0 0) State.reset
    = .next (State.reset.stageBytes [⟨0x01, false⟩, ⟨0x04, false⟩, ⟨0x19, false⟩, ⟨0x02, true⟩]) := rfl

/-- CF3. -/
theorem test_height_invalid : exec (.height 0 0 0 0 0 0 0) State.reset = .next State.reset := rfl

/-- CF5. -/
theorem test_status : exec (.status 0xAA 0x55 0xCC 0x77) State.reset
    = .next (State.reset.stageBytes [⟨0x02, false⟩, ⟨0xAA, false⟩, ⟨0x55, true⟩]) := rfl

/-- CF7. -/
theorem test_unknown : exec (.unknown 0x07 0x11 [1, 2, 3, 4, 5, 6, 7]) State.reset
    = .next (State.reset.emit [.unknown 0x07 0x11 [1, 2, 3, 4, 5, 6]]) := rfl

/-- CF9, CF10. -/
theorem test_unknown_empty_payload :
    exec (.unknown 0x00 0xAA []) State.reset = .next (State.reset.emit [.unknown 0x00 0xAA []])
    ∧ exec (.unknown 0x01 0xAA [0xBB]) State.reset = .next (State.reset.emit [.unknown 0x01 0xAA []]) := ⟨rfl, rfl⟩

/-- O1: record `01 00 7B 01`. -/
theorem test_short : exec (.shortHeight 0x86 0xDB 0x4F [0, 0, 0]) State.reset
    = .next (State.reset.stageBytes [⟨0x01, false⟩, ⟨0x00, false⟩, ⟨0x7B, false⟩, ⟨0x01, true⟩]) := rfl

/-- O5, O6, O7 through the scan's classifier. -/
theorem test_classify_orphan :
    classifyOrphan [0x07, 0x12, 0x00, 6, 6, 0, 0, 0] = .ok [] ∧ classifyOrphan [0x07, 0x13, 6, 6, 6, 0, 0, 0] = .ok []
    ∧ classifyOrphan [0x07, 0x12, 0x3F, 0x3F, 0x3F, 0xAA, 0xBB, 0xCC, 0xDD, 0xEE] = .ok [.height ⟨0, 0⟩] := ⟨rfl, rfl, rfl⟩

/-- V-EVREC. -/
theorem test_records :
    (Event.height ⟨9999, 0⟩).record = [0x01, 0x27, 0x0F, 0x00] ∧ (Event.unknown 0x02 0x55 [0x66]).record = [0x03, 0x02, 0x55, 0x01, 0x66]
    ∧ (Event.diag .orphan 5).record = [0x04, 0x02, 0x00, 0x05] ∧ (Event.diag .noSync 512).record = [0x04, 0x01, 0x02, 0x00] := by
  decide

/-- EV_DIAG in both builds (R8). -/
theorem test_ev_diag :
    exec (.evDiag 0x01 6) (withBufDiag []) = .next ((withBufDiag []).emit [.diag .noSync 6])
    ∧ exec (.evDiag 0x01 6) (withBuf []) = .next (withBuf []) := ⟨rfl, rfl⟩

/-! ## Segment bytes and heights (V-SEG, V-A, V-B) -/

theorem test_decode7 : decode7 0x00 = ⟨none, false⟩ ∧ decode7 0x80 = ⟨none, true⟩ ∧ decode7 0x3F = ⟨some 0, false⟩
    ∧ decode7 0xFF = ⟨some 8, true⟩ ∧ decode7 0x63 = ⟨none, false⟩ ∧ decode7 0xE3 = ⟨none, true⟩ ∧ decode7 0x9B = ⟨none, true⟩ := by
  decide

theorem test_seg_row : exec (.seg4 true) State.reset = .next (State.reset.outDigit ⟨some 4, true⟩) := rfl

/-- VA3, VA4, VA6 to VA8, VA12, VA14, VA15, VA17, VA19: the same under both settings. -/
theorem test_variant_a : ∀ r ∈ [MultiPointRule.invalid, .prefixCut],
    assembleA r 0x00 0x06 0xBF 0x66 = .valid ⟨104, 1⟩ ∧ assembleA r 0x3F 0x3F 0x06 0x5B = .valid ⟨12, 0⟩
    ∧ assembleA r 0x06 0x5B 0x4F 0xE6 = .valid ⟨1234, 0⟩ ∧ assembleA r 0x80 0x06 0x5B 0x4F = .valid ⟨123, 3⟩
    ∧ assembleA r 0x06 0x80 0x5B 0x00 = .valid ⟨12, 1⟩ ∧ assembleA r 0x80 0x80 0x80 0x80 = .invalid
    ∧ assembleA r 0x06 0x86 0x00 0x00 = .valid ⟨11, 0⟩ ∧ assembleA r 0xBF 0x3F 0x3F 0x3F = .valid ⟨0, 3⟩
    ∧ assembleA r 0x06 0xBF 0x66 0x6F = .valid ⟨1049, 2⟩ ∧ assembleA r 0x87 0x6D 0x00 0x00 = .valid ⟨75, 1⟩ := by decide

/-- VA5, VA9, VA13. -/
theorem test_variant_a_points :
    assembleA .invalid 0x86 0x86 0x06 0x06 = .invalid ∧ assembleA .prefixCut 0x86 0x86 0x06 0x06 = .valid ⟨11, 1⟩
    ∧ assembleA .invalid 0xFF 0xFF 0xFF 0xFF = .invalid ∧ assembleA .prefixCut 0xFF 0xFF 0xFF 0xFF = .valid ⟨88, 1⟩
    ∧ assembleA .prefixCut 0x80 0x80 0x06 0x06 = .invalid := by decide

/-- VB1, VB4 to VB9. -/
theorem test_variant_b :
    assembleB 0x86 0xDB 0x4F = .valid ⟨123, 1⟩ ∧ assembleB 0x3F 0x3F 0x3F = .valid ⟨0, 0⟩ ∧ assembleB 0x00 0x06 0x06 = .invalid
    ∧ assembleB 0x86 0x86 0x86 = .valid ⟨111, 1⟩ ∧ assembleB 0x6F 0x6F 0xEF = .valid ⟨999, 1⟩
    ∧ assembleB 0x80 0x06 0x06 = .invalid ∧ assembleB 0x06 0x06 0x63 = .invalid := by decide

/-- V-ASYM: all three assertions. -/
theorem test_variants_differ :
    assembleB 0x06 0x5B 0xCF = .valid ⟨123, 1⟩ ∧ assembleA .invalid 0x06 0x5B 0xCF 0x00 = .valid ⟨123, 0⟩
    ∧ assembleB 0x86 0xDB 0x4F = .valid ⟨123, 1⟩ ∧ assembleA .invalid 0x86 0xDB 0x4F 0x00 = .invalid
    ∧ assembleA .prefixCut 0x86 0xDB 0x4F 0x00 = .valid ⟨12, 1⟩
    ∧ assembleB 0x86 0x86 0x86 = .valid ⟨111, 1⟩ ∧ assembleA .invalid 0x86 0x86 0x86 0x00 = .invalid
    ∧ assembleA .prefixCut 0x86 0x86 0x86 0x00 = .valid ⟨11, 1⟩ := by decide

/-! ## The ports -/

/-- R64: a stalled consumer holds the byte, a ready one takes it; R125: `rst` drops it. -/
theorem test_port :
    let s := (withBuf [0x9B]).stageBytes [⟨0x02, false⟩, ⟨0xAA, false⟩, ⟨0x55, true⟩]
    step { s with lines := [⟨false, false⟩] } = .next s
    ∧ step s = .next { s with evtStage := [⟨0xAA, false⟩, ⟨0x55, true⟩], evtTaken := [⟨0x02, false⟩] }
    ∧ step { s with lines := [⟨true, true⟩] } = .next (withBuf []) := ⟨rfl, rfl, rfl⟩

/-- R138: with a consumer that never takes a byte, the END does not complete and the next command is not accepted. -/
theorem test_hang :
    let s := { (withBuf []).stageBytes [⟨0x02, true⟩] with input := [.hcw 0b0000000111], linesAfter := ⟨false, false⟩ }
    stepN 4 s = .next s ∧ s.cmdReady = false := ⟨rfl, rfl⟩

/-! ## Inputs that meet each statement's hypotheses -/

/-- A state under `rst`, and one step later. -/
def underReset : State := { withBuf [0x9B] with lines := [⟨true, true⟩] }

/-- A state in which three bytes wait and PUSH 07 is not yet accepted. -/
def waiting : State :=
  { (withBuf [0x9B]).stageBytes [⟨0x02, false⟩, ⟨0xAA, false⟩, ⟨0x55, true⟩] with input := [.hcw 0b0000000111] }

/-- CF1, the frame of W6. -/
def heightFrame : List Byte := [0x9B, 0x07, 0x12, 0x06, 0x3F, 0x66, 0x63, 0xE5, 0x00, 0x00]

/-- CF5. -/
def statusFrame : List Byte := [0x9B, 0x04, 0x11, 0xAA, 0x55, 0xCC, 0x77]

/-- O1. -/
def shortSpan : List Byte := [0x07, 0x12, 0x86, 0xDB, 0x4F, 0x00, 0x00, 0x00]

theorem witness_ResetValues : underReset.params.wf = true ∧ underReset.linesNow.rst = true ∧ (withBuf [0x9B]).params.wf = true := by
  decide

theorem witness_HardwareResetAbandonsCommand : underReset.linesNow.rst = true
    ∧ step underReset = .next State.reset ∧ State.reset.linesNow.rst = false := ⟨rfl, rfl, rfl⟩

theorem witness_StepKeepsInvariant : waiting.inv = true
    ∧ step waiting = .next { waiting with evtStage := [⟨0xAA, false⟩, ⟨0x55, true⟩], evtTaken := [⟨0x02, false⟩] } := ⟨rfl, rfl⟩

theorem witness_HcwOpcodeMap :
    (0x000 : Hcw) &&& 0x300 = 0x000 ∧ (0x0FF : Hcw) &&& 0x300 = 0x000
    ∧ (0x101 : Hcw) &&& 0x300 = 0x100 ∧ (0x101 : Hcw) &&& 0x0FF ≠ 0 ∧ (0x1FF : Hcw) &&& 0x300 = 0x100
    ∧ (0x201 : Hcw) &&& 0x300 = 0x200 ∧ (0x201 : Hcw) &&& 0x0FF ≠ 0 ∧ (0x2FF : Hcw) &&& 0x300 = 0x200
    ∧ (0x300 : Hcw) &&& 0x300 = 0x300 ∧ (0x3FF : Hcw) &&& 0x300 = 0x300 := by decide

theorem witness_DecodeOfEncode : (Instr.height 0x06 0x3F 0x66 0x63 0xE5 0 0).wf = true ∧ (Instr.reserved01 0xFF).wf = true
    ∧ (Instr.unknown 2 0x55 [0x66, 0x77]).wf = true ∧ (Instr.shortHeight 0x86 0xDB 0x4F [0, 0, 0]).wf = true
    ∧ (Instr.segInvalid true 0).wf = true ∧ (Instr.evHeight 9999 3).wf = true ∧ (Instr.evDiag 2 0xFFFF).wf = true := by decide

theorem witness_EncodeOfDecode : decode (.frame statusFrame) = .ok (.status 0xAA 0x55 0xCC 0x77) := rfl

theorem witness_DecodedWordsAreWellFormed :
    decode (.short shortSpan) = .ok (.shortHeight 0x86 0xDB 0x4F [0, 0, 0]) ∧ (Code.short shortSpan).format ≠ .evrec :=
  ⟨rfl, by decide⟩

/-- One byte of room left, none left, and an offset other than the tail's. -/
theorem witness_PushAppendsOrLoses :
    (List.replicate 257 (0 : Byte)).length < smallParams.bufCap ∧ smallParams.bufCap ≤ (List.replicate 258 (0 : Byte)).length
    ∧ exec (.push 7) (withBuf [0x9B]) = .next (withBuf [0x9B, 7]) ∧ 0 ≠ (withBuf [0x9B]).buf.length :=
  ⟨by decide +kernel, by decide +kernel, rfl, by decide +kernel⟩

theorem witness_ResetClearsOnlyBuffer : 1 ≤ (withBuf [0x9B]).params.bufCap := by decide

theorem witness_ChunkIsAppendThenScan :
    (withBuf (List.replicate 255 0)).buf.length + (List.replicate 257 (0 : Byte)).length ≤ Params.default.bufCap := by decide +kernel

/-- S8: the first END takes a frame out of BUF and emits its event. -/
theorem witness_EndIsIdempotent :
    exec .endChunk (withBuf [0x9B, 0, 0, 0x9B, 0, 0]) = .next ((withBuf [0x9B, 0, 0]).emit [.unknown 0 0 []])
    ∧ (withBuf [0x9B, 0, 0]).buf ≠ (withBuf [0x9B, 0, 0, 0x9B, 0, 0]).buf := ⟨rfl, by decide⟩

theorem witness_ShortBufferIsNotScanned : (withBuf [0x9B, 0x02, 0x11, 0x22, 0x33]).buf.length < 6 := by decide

theorem witness_BufferWithoutSyncIsCleared : 6 ≤ (withBuf [0, 0, 0, 0, 0, 0]).buf.length
    ∧ (withBuf [0, 0, 0, 0, 0, 0]).buf.contains 0x9B = false ∧ (withBufDiag shortSpan).buf.contains 0x9B = false
    ∧ (withBufDiag shortSpan).params.diagEnable = true := by decide

/-- S16, the largest BUF that suspends. -/
theorem witness_IncompleteFrameSuspends :
    (withBuf (0x9B :: 0xFF :: List.replicate 255 0)).buf = 0x9B :: 0xFF :: List.replicate 255 0
    ∧ (0x9B :: 0xFF :: List.replicate 255 (0 : Byte)).length < (0xFF : Byte).toNat + 3 := by decide +kernel

theorem witness_FrameIsExtractedThenScanGoesOn :
    isFrame [0x9B, 0, 0] = true ∧ 6 ≤ ([0x9B, 0, 0] ++ [0x9B, 0, (0 : Byte)]).length
    ∧ isFrame (0x9B :: 0xFF :: List.replicate 256 0) = true := by decide +kernel

/-- S11: the marker alone is left, and S14: the marker and its length byte. -/
theorem witness_OrphanDropIsKeptOnSuspend :
    (withBuf (shortSpan ++ [0x9B])).buf = shortSpan ++ [0x9B] ∧ isOrphan shortSpan = true ∧ suspended [0x9B] = true
    ∧ 6 ≤ (shortSpan ++ [(0x9B : Byte)]).length ∧ suspended [0x9B, 0x07] = true := by decide

/-- P2 and S7. -/
theorem witness_OrphanThenFrameInOrder :
    isOrphan shortSpan = true ∧ isFrame statusFrame = true ∧ 6 ≤ (shortSpan ++ statusFrame ++ []).length
    ∧ isOrphan [0x07, 0x12, 6, 6, 6] = true ∧ isFrame [0x9B, 0, 0] = true := by decide

theorem witness_ScanTerminatesWithinBound :
    scanIteration Params.default [0x9B, 0, 0, 0x9B, 0, 0] = .ok ⟨[0x9B, 0, 0], [.unknown 0 0 []], true⟩ := rfl

/-- Both cases of R31: S8 leaves three bytes, S6 a frame not yet whole. -/
theorem witness_BufferAfterEnd :
    (∃ es, exec .endChunk (withBuf [0x9B, 0, 0, 0x9B, 0, 0]) = .next ((withBuf [0x9B, 0, 0]).emit es))
    ∧ exec .endChunk (withBuf [0x9B, 7, 0x12, 6, 0x3F, 0x66]) = .next (withBuf [0x9B, 7, 0x12, 6, 0x3F, 0x66]) := ⟨⟨_, rfl⟩, rfl⟩

/-- The bound is met: S16 leaves 257 bytes, with BUF_CAP at its least. -/
theorem witness_EndLeavesRoom :
    let s := { withBuf (0x9B :: 0xFF :: List.replicate 255 0) with params := smallParams }
    exec .endChunk s = .next s ∧ s.params.wf = true ∧ s.buf.length = 257 :=
  ⟨next_of _ _ (by decide +kernel), by decide +kernel, by decide +kernel⟩

theorem witness_OneFrameUnderAnySplit : (withBuf []).params.wf = true ∧ (withBuf []).buf = [] ∧ isFrame heightFrame = true
    ∧ 6 ≤ heightFrame.length
    ∧ [[0x9B, 0x07, 0x12], [], [0x06, 0x3F, 0x66, 0x63, 0xE5, 0x00, 0x00]].flatten = heightFrame := by decide

/-- Both cases: a five-byte frame, and a short form alone. -/
theorem witness_NoEventUnderAnySplit : (withBuf []).params.wf = true ∧ (withBuf []).params.diagEnable = false ∧ (withBuf []).buf = []
    ∧ isFrame [0x9B, 0x02, 0x11, 0x22, 0x33] = true ∧ [[0x9B, 0x02], [0x11, 0x22, 0x33]].flatten = [0x9B, 0x02, 0x11, 0x22, (0x33 : Byte)]
    ∧ shortSpan.contains SYNC = false ∧ shortSpan.length ≤ Params.default.bufCap ∧ [shortSpan].flatten = shortSpan := by decide

theorem witness_PendingFrameIsCompleted : (withBuf (heightFrame.take 2)).params.wf = true ∧ suspended (heightFrame.take 2) = true
    ∧ isFrame (heightFrame.take 2 ++ heightFrame.drop 2) = true ∧ 6 ≤ (heightFrame.take 2 ++ heightFrame.drop 2).length := by decide

theorem witness_OrphanBytesReachNoPayload : isOrphan [1, 2, 3] = true ∧ isOrphan shortSpan = true
    ∧ 6 ≤ ([1, 2, 3] ++ SYNC :: [0x04, 0x12, 0xAA, 0xBB, 0xCC, 0xDD]).length
    ∧ 6 ≤ (shortSpan ++ SYNC :: [0x04, 0x12, 0xAA, 0xBB, 0xCC, 0xDD]).length := by decide

theorem witness_EmittedEventsFitTheirRecords :
    Params.default.wf = true ∧ Memory.wf Params.default.bufCap statusFrame = true
    ∧ scan Params.default statusFrame = .ok ([], [.status 0xAA 0x55]) ∧ Event.status 0xAA 0x55 ∈ [Event.status 0xAA 0x55] :=
  ⟨rfl, rfl, rfl, by decide⟩

/-- CF1 with a valid reading and CF3 with an INVALID one. -/
theorem witness_HeightFrameEmitsVariantA :
    isFrame heightFrame = true ∧ 9 ≤ heightFrame.length ∧ heightFrame[1]? = some 0x07 ∧ heightFrame[2]? = some 0x12
    ∧ heightFrame[3]? = some 0x06 ∧ heightFrame[4]? = some 0x3F ∧ heightFrame[5]? = some 0x66 ∧ heightFrame[6]? = some 0x63
    ∧ assembleA Params.default.multiPoint 0x06 0x3F 0x66 0x63 = .valid ⟨104, 0⟩
    ∧ isFrame [0x9B, 0x07, 0x12, 0, 0, 0, 0, 0, 0, 0] = true ∧
    assembleA Params.default.multiPoint 0x6F 0x6F 0x6F 0x6F = .valid ⟨9999, 0⟩ ∧ assembleA Params.default.multiPoint 0 0 0 0 = .invalid := by
  decide

theorem witness_StatusFrameEmitsTwoBytes : isFrame statusFrame = true ∧ 7 ≤ statusFrame.length ∧ statusFrame[1]? = some 0x04
    ∧ statusFrame[2]? = some 0x11 ∧ statusFrame[3]? = some 0xAA ∧ statusFrame[4]? = some 0x55 := by decide

/-- CF9, CF11 and CF8, whose length field is a status frame's. -/
theorem witness_UnknownFrameEmitsMiddleSlice : [0x9B, 0x00, 0xAA] = SYNC :: 0x00 :: 0xAA :: ([] : List Byte)
    ∧ [0x9B, 0x02, 0x55, 0x66, 0x77] = SYNC :: 0x02 :: 0x55 :: [0x66, (0x77 : Byte)]
    ∧ isFrame [0x9B, 0x04, 0x12, 1, 2, 3, 4] = true ∧ ¬((0x04 : Byte) = 0x07 ∧ (0x12 : Byte) = 0x12)
    ∧ ¬((0x04 : Byte) = 0x04 ∧ (0x12 : Byte) = 0x11) := by decide

/-- O1 and O5; and a span outside each part of the test: O3, O4, O6. -/
theorem witness_ShortFormEmitsVariantB : 3 ≤ [0x00, 0x00, (0x00 : Byte)].length ∧ assembleB 0x86 0xDB 0x4F = .valid ⟨123, 1⟩
    ∧ assembleB 0x00 0x06 0x06 = .invalid ∧ (shortSpan.take 7).length < 8 ∧ (0x00 :: shortSpan)[0]? ≠ some 0x07
    ∧ [0x07, 0x13, 6, 6, 6, 0, 0, (0 : Byte)][1]? ≠ some 0x12 := by decide

theorem witness_Decode7Table : (0x80 : Byte) ≠ 0x00
    ∧ (0x9B : Byte) &&& 0x7F ∉ [(0x3F : Byte), 0x06, 0x5B, 0x4F, 0x66, 0x6D, 0x7D, 0x07, 0x7F, 0x6F] := by decide

theorem witness_ClassifierRunsTheFrameRow : isFrame heightFrame = true ∧ isFrame statusFrame = true ∧ isFrame [0x9B, 0x00, 0xAA] = true := by
  decide

theorem witness_ClassifierRunsTheShortRow : isOrphan shortSpan = true ∧ isOrphan [0x07] = true := by decide

/-- The shortest frame with a byte before its trailer, with bytes after it. -/
theorem witness_UnexaminedBytesDoNotMatter : ([] : List Byte).length + 1 = (1 : Byte).toNat
    ∧ 6 ≤ (SYNC :: 1 :: 0xAA :: [] ++ [0xBB] ++ [0, (0 : Byte)]).length := by decide

/-- No point (VA1), a point in the first byte (VA15) and in the last (VA18). -/
theorem witness_VariantAWithOnePoint :
    (∀ v ∈ [0x06, 0x3F, 0x66, 0x63], (decode7 v).dp = false)
    ∧ [0xBF, 0x3F, 0x3F, 0x3F] = [] ++ 0xBF :: [0x3F, 0x3F, (0x3F : Byte)] ∧ (decode7 0xBF).dp = true
    ∧ (∀ v ∈ [] ++ [0x3F, 0x3F, 0x3F], (decode7 v).dp = false)
    ∧ [0x00, 0x00, 0x00, 0x86] = [0x00, 0x00, 0x00] ++ 0x86 :: ([] : List Byte) ∧ (decode7 0x86).dp = true
    ∧ (∀ v ∈ [0x00, 0x00, 0x00] ++ [], (decode7 v).dp = false) := by decide

/-- VA5, and two points in the last two bytes. -/
theorem witness_VariantAWithSeveralPoints :
    [0x86, 0x86, 0x06, 0x06] = [] ++ 0x86 :: [] ++ 0x86 :: [0x06, (0x06 : Byte)] ∧ (decode7 0x86).dp = true
    ∧ (∀ w ∈ ([] : List Byte) ++ [], (decode7 w).dp = false)
    ∧ [0x06, 0x00, 0x86, 0x86] = [0x06, 0x00] ++ 0x86 :: [] ++ 0x86 :: ([] : List Byte)
    ∧ (∀ w ∈ [0x06, 0x00] ++ [], (decode7 w).dp = false) := by decide

theorem witness_VariantBFormula : (decode7 0x00).digit = none ∧ (decode7 0x63).digit = none ∧ (decode7 0x6F).digit = some 9
    ∧ (decode7 0xEF).digit = some 9 ∧ (decode7 0xEF).dp = true := by decide

theorem witness_HeightRanges : assembleA .invalid 0x6F 0x6F 0x6F 0x6F = .valid ⟨9999, 0⟩
    ∧ assembleA .prefixCut 0xBF 0x3F 0x3F 0x3F = .valid ⟨0, 3⟩ ∧ assembleB 0x6F 0x6F 0xEF = .valid ⟨999, 1⟩ := by decide

theorem witness_RecordRowsReachTheStage :
    (withBufDiag []).params.diagEnable = true ∧ (withBuf []).params.diagEnable = false := by decide

theorem witness_StepRunsTheDecodedInstruction :
    let s := { withBuf [0x9B] with input := [.hcw 0b0000000111, .hcw 0b0100000000] }
    s.linesNow.rst = false ∧ s.evtStage = [] ∧ s.input = .hcw 0b0000000111 :: [.hcw 0b0100000000]
    ∧ decode (.hcw 0b0000000111) = .ok (.push 7) := ⟨rfl, rfl, rfl, rfl⟩

theorem witness_EventPortHandshake : waiting.linesNow.rst = false
    ∧ waiting.evtStage = ⟨0x02, false⟩ :: [⟨0xAA, false⟩, ⟨0x55, true⟩] ∧ waiting.linesNow.evtReady = true
    ∧ { waiting with lines := [⟨false, false⟩] }.linesNow.evtReady = false := ⟨rfl, rfl, rfl, rfl⟩

/-- Two scheduled entries, and the third from what holds after the schedule. -/
theorem witness_ReadyConsumerDrainsTheStage :
    let s := { waiting with lines := List.replicate 2 ⟨false, true⟩ }
    ∀ k < s.evtStage.length, s.linesAt k = { rst := false, evtReady := true } := by decide

/-- A consumer that stalls for two steps. -/
def stalled : State := { waiting with lines := List.replicate 2 ⟨false, false⟩ }

/-- A consumer that never takes a byte: the hang of R138. -/
def stalledForGood : State := { waiting with lines := [⟨false, false⟩], linesAfter := ⟨false, false⟩ }

theorem witness_StalledConsumerHoldsTheCommand :
    stalled.evtStage ≠ [] ∧ (∀ j < 2, stalled.linesAt j = { rst := false, evtReady := false })
    ∧ stalledForGood.evtStage ≠ [] ∧ (∀ l ∈ stalledForGood.lines, l = { rst := false, evtReady := false })
    ∧ stalledForGood.linesAfter = { rst := false, evtReady := false } := by decide

/-- A reset before the first byte is taken, and one after the last. -/
theorem witness_ResetDuringEndDeliversAPrefix :
    0 ≤ waiting.evtStage.length
    ∧ ({ waiting with lines := [{ rst := true, evtReady := true }] } : State).lines
        = List.replicate 0 ({ rst := false, evtReady := true } : Lines) ++ { rst := true, evtReady := true } :: []
    ∧ 3 ≤ waiting.evtStage.length
    ∧ ({ waiting with lines := List.replicate 3 { rst := false, evtReady := true } ++ [{ rst := true, evtReady := true }] } : State).lines
        = List.replicate 3 { rst := false, evtReady := true } ++ { rst := true, evtReady := true } :: [] := by decide

theorem witness_IdleHoldsBuffer : (withBuf [0x9B]).linesNow.rst = false ∧ (withBuf [0x9B]).evtStage = [] ∧ (withBuf [0x9B]).input = [] := by
  decide

/-- BUF full and BUF empty; the three phases' heads. -/
theorem witness_StatusOutputsAndPhase :
    { withBuf (List.replicate 258 0) with params := smallParams }.inv = true
    ∧ { withBuf (List.replicate 258 0) with params := smallParams }.full = true ∧ (withBuf []).inv = true
    ∧ phase [0x9B] = .awaitingLength ∧ phase [0x9B, 0] = .awaitingBody ∧ phase [0, 0x9B] = .awaitingSync := by decide +kernel

theorem witness_RunIsIndependentOfTiming :
    let s := { waiting with lines := [⟨false, false⟩] }
    s.hostDriven = true ∧ (∀ l ∈ s.lines, l.rst = false) ∧ s.linesAfter.rst = false
    ∧ stepN 5 s = .next { withBuf [0x9B, 7] with evtTaken := [⟨0x02, false⟩, ⟨0xAA, false⟩, ⟨0x55, true⟩] } :=
  ⟨rfl, by decide, rfl, rfl⟩

theorem witness_NoStepFaults : waiting.hostDriven = true := rfl

theorem witness_BufferIsAppendedOrDropped : step (State.reset.withFetchWord 16 0x07) = .next (withBuf [7])
    ∧ step underReset = .next State.reset := ⟨rfl, rfl⟩

/-- A command, a frame, a segment byte and a record. -/
theorem witness_EveryInstructionFrame :
    exec (.push 7) (withBuf []) = .next (withBuf [7])
    ∧ exec (.status 1 2 0 0) (withBuf [7]) = .next ((withBuf [7]).emit [.status 1 2])
    ∧ exec (.seg1 true) (withBuf [7]) = .next ((withBuf [7]).outDigit ⟨some 1, true⟩)
    ∧ exec (.evStatus 1 2) (withBuf [7]) = .next ((withBuf [7]).emit [.status 1 2]) := ⟨rfl, rfl, rfl, rfl⟩

end Sys2Proof.Tests
end

/-! ## The scope family: the invariant and the frame of every instruction (O3, O4, O59) -/

namespace Sys2Proof.Machine

/-! ### What an instruction leaves unchanged, field by field -/

section Frame

variable {i : Instr} {s t : State}

/-- The parameters and what belongs to the outside world: no instruction touches them (R16). -/
theorem exec_keeps_outside (h : exec i s = .next t) :
    t.params = s.params ∧ t.input = s.input ∧ t.lines = s.lines ∧ t.linesAfter = s.linesAfter ∧ t.evtTaken = s.evtTaken := by
  obtain ⟨b, -, rfl⟩ | ⟨-, r, es, -, rfl⟩ | ⟨-, rfl⟩ | ⟨-, rfl⟩ | ⟨-, bs, -, rfl⟩ | ⟨-, r, rfl⟩ := exec_next_cases h <;>
    exact ⟨rfl, rfl, rfl, rfl, rfl⟩

/-- What an instruction puts into the output stage are whole records, behind the bytes already there (R25, R64). -/
theorem exec_evtStage_append (h : exec i s = .next t) : ∃ bs, stageClosed bs = true ∧ t.evtStage = s.evtStage ++ bs := by
  obtain ⟨b, -, rfl⟩ | ⟨-, r, es, -, rfl⟩ | ⟨-, rfl⟩ | ⟨-, rfl⟩ | ⟨-, bs, hbs, rfl⟩ | ⟨-, r, rfl⟩ := exec_next_cases h
  case inr.inl => exact ⟨wireEvents es, wireEvents_closed es, rfl⟩
  case inr.inr.inr.inr.inl => exact ⟨bs, hbs, rfl⟩
  all_goals exact ⟨[], rfl, (List.append_nil _).symm⟩

/-- The SEG7 rows and the commands other than END emit nothing. -/
theorem exec_keeps_evtStage (h : exec i s = .next t) (hi : i.format = .seg7 ∨ (i.format = .hcw ∧ i ≠ .endChunk)) :
    t.evtStage = s.evtStage := by
  obtain ⟨b, -, rfl⟩ | ⟨rfl, -⟩ | ⟨-, rfl⟩ | ⟨-, rfl⟩ | ⟨hf, -⟩ | ⟨-, r, rfl⟩ := exec_next_cases h
  case inr.inl => simp [Instr.format] at hi
  case inr.inr.inr.inr.inl => rcases hf with hf | hf | hf <;> simp [hf] at hi
  all_goals rfl

/-- Only PUSH, END and RESET write BUF (R14, R20). -/
theorem exec_keeps_buf (h : exec i s = .next t) (hp : ∀ b, i ≠ .push b) (he : i ≠ .endChunk) (hr : i ≠ .reset) :
    t.buf = s.buf := by
  obtain ⟨b, hi, -⟩ | ⟨hi, -⟩ | ⟨hi, -⟩ | ⟨-, rfl⟩ | ⟨-, bs, -, rfl⟩ | ⟨-, r, rfl⟩ := exec_next_cases h
  · exact absurd hi (hp b)
  · exact absurd hi he
  · exact absurd hi hr
  all_goals rfl

theorem exec_keeps_buf_of_format_ne_hcw (h : exec i s = .next t) (hi : i.format ≠ .hcw) : t.buf = s.buf :=
  exec_keeps_buf h (by rintro b rfl; exact hi rfl) (by rintro rfl; exact hi rfl) (by rintro rfl; exact hi rfl)

/-- Only the SEG7 rows give a DigitReading (R95). -/
theorem exec_keeps_digitOut (h : exec i s = .next t) (hi : i.format ≠ .seg7) : t.digitOut = s.digitOut := by
  obtain ⟨b, -, rfl⟩ | ⟨-, r, es, -, rfl⟩ | ⟨-, rfl⟩ | ⟨-, rfl⟩ | ⟨-, bs, -, rfl⟩ | ⟨hf, -⟩ := exec_next_cases h
  case inr.inr.inr.inr.inr => exact absurd hf hi
  all_goals rfl

end Frame

/-! ### The invariant, event by event at the ports -/

section Invariant

variable {s t : State}

/-- BUF stays within BUF_CAP: PUSH appends only where there is room, SCAN and RESET only drop bytes (R17, R67). -/
theorem exec_keeps_buf_bound {i : Instr} (hb : s.buf.length ≤ s.params.bufCap) (h : exec i s = .next t) :
    t.buf.length ≤ s.params.bufCap := by
  obtain ⟨b, -, rfl⟩ | ⟨-, r, es, hs, rfl⟩ | ⟨-, rfl⟩ | ⟨-, rfl⟩ | ⟨-, bs, -, rfl⟩ | ⟨-, r, rfl⟩ := exec_next_cases h
  case inl => simpa [Memory.wf, State.pushByte_eq_setBuf] using Memory.append_wf b (decide_eq_true hb)
  case inr.inl => exact (scan_suffix hs).length_le.trans hb
  case inr.inr.inl => exact Nat.zero_le _
  all_goals exact hb

theorem exec_keeps_inv {i : Instr} (hs : s.inv = true) (h : exec i s = .next t) : t.inv = true := by
  obtain ⟨hp, hb, hc⟩ := s.inv_iff.mp hs
  obtain ⟨bs, hbs, he⟩ := exec_evtStage_append h
  obtain ⟨hpt, -⟩ := exec_keeps_outside h
  rw [State.inv_iff, hpt, he]
  exact ⟨hp, exec_keeps_buf_bound hb h, stageClosed_append hc hbs⟩

/-- A word without a row that is not refused has no effect (R93). -/
theorem rejectWord_next {e : DecodeError} (h : rejectWord e s = .next t) : t = s := by
  cases e <;> cases h
  rfl

/-- Taking the first byte leaves the stage's last byte last, or no byte at all (R64). -/
theorem stageClosed_tail {bs : List EvtByte} (h : stageClosed bs = true) : stageClosed bs.tail = true := by
  match bs, h with
  | [], _ | [_], _ => rfl
  | _ :: b :: bs, h => simpa [stageClosed, List.getLast?_cons_cons] using h

theorem State.hardwareReset_inv (h : s.inv = true) : s.hardwareReset.inv = true :=
  (State.inv_iff _).mpr ⟨(s.inv_iff.mp h).1, Nat.zero_le _, rfl⟩

theorem State.takeByte_inv (h : s.inv = true) : s.takeByte.inv = true := by
  obtain ⟨hp, hb, hc⟩ := s.inv_iff.mp h
  exact (State.inv_iff _).mpr ⟨hp, hb, stageClosed_tail hc⟩

@[simp] theorem State.dropLines_inv (s : State) : s.dropLines.inv = s.inv := rfl
@[simp] theorem State.dropInput_inv (s : State) : s.dropInput.inv = s.inv := rfl

/-- A step that answers a next state, by the state it reaches: a reset, a byte taken, one entry of the schedule used up, or a
word accepted, which runs its row or has no effect. -/
theorem step_next_cases (h : step s = .next t) :
    t = s.dropLines.hardwareReset ∨ t = s.dropLines.takeByte ∨ t = s.dropLines
    ∨ (∃ i, exec i s.dropLines.dropInput = .next t) ∨ t = s.dropLines.dropInput := by
  obtain ⟨-, hs⟩ | ⟨-, -, -, hs⟩ | ⟨-, -, hs⟩ | ⟨-, -, c, cs, -, ⟨i, -, hs⟩ | ⟨e, -, hs⟩⟩ := step_cases s <;> rw [hs] at h
  · cases h; exact .inl rfl
  · cases h; exact .inr (.inl rfl)
  · cases h; exact .inr (.inr (.inl rfl))
  · exact .inr (.inr (.inr (.inl ⟨i, h⟩)))
  · exact .inr (.inr (.inr (.inr (rejectWord_next h))))

theorem step_keeps_params (h : step s = .next t) : t.params = s.params := by
  obtain rfl | rfl | rfl | ⟨i, hi⟩ | rfl := step_next_cases h
  case inr.inr.inr.inl => exact (exec_keeps_outside hi).1
  all_goals rfl

theorem step_keeps_inv (hs : s.inv = true) (h : step s = .next t) : t.inv = true := by
  have hd : s.dropLines.inv = true := s.dropLines_inv.trans hs
  obtain rfl | rfl | rfl | ⟨i, hi⟩ | rfl := step_next_cases h
  · exact State.hardwareReset_inv hd
  · exact State.takeByte_inv hd
  · exact hd
  · exact exec_keeps_inv (s.dropLines.dropInput_inv.trans hd) hi
  · exact s.dropLines.dropInput_inv.trans hd

end Invariant

/-! ### The obligations -/

/-- Settles O4: each event at the ports keeps the invariant. -/
theorem stepKeepsInvariant : Obligations.StepKeepsInvariant :=
  fun _ _ hs h => ⟨step_keeps_inv hs h, step_keeps_params h⟩

/-- Settles O59: the frame of `exec`, assembled field by field. -/
theorem everyInstructionFrame : Obligations.EveryInstructionFrame := by
  intro i s t h
  obtain ⟨hp, hi, hl, ha, ht⟩ := exec_keeps_outside h
  obtain ⟨bs, -, he⟩ := exec_evtStage_append h
  exact ⟨hp, hi, hl, ha, ht, ⟨bs, he.symm⟩, exec_keeps_evtStage h,
    fun hpush hend hreset a => by rw [exec_keeps_buf h hpush hend hreset],
    exec_keeps_buf_of_format_ne_hcw h, exec_keeps_digitOut h⟩

/-- Settles O3: the default parameters are legal, and BUF and the output stage are empty. -/
theorem resetMeetsInvariant : Obligations.ResetMeetsInvariant :=
  State.reset.inv_iff.mpr ⟨(Params.wf_iff _).mpr (by decide), Nat.zero_le _, rfl⟩

end Sys2Proof.Machine

/-! ## The state family: BUF after each event, the status outputs, and the events a scan emits (O1, O24, O25, O31, O55, O58) -/

namespace Sys2Proof

open Config

/-- A well-formed EV_HEIGHT record (R59). -/
theorem Instr.wf_evHeight_iff (mant : Half) (scale : Byte) :
    (Instr.evHeight mant scale).wf = true ↔ mant.toNat ≤ 9999 ∧ scale.toNat ≤ 3 := by
  simp only [Instr.wf, MANT_MAX_eq, SCALE_MAX_eq, Bool.and_eq_true, decide_eq_true_eq]

/-- A well-formed EV_DIAG record (R62, R117). -/
theorem Instr.wf_evDiag_iff (reason : Byte) (count : Half) :
    (Instr.evDiag reason count).wf = true ↔ (reason = REASON_NO_SYNC ∨ reason = REASON_ORPHAN) ∧ 1 ≤ count.toNat := by
  simp only [Instr.wf, Bool.and_eq_true, decide_eq_true_eq]

end Sys2Proof

namespace Sys2Proof.Machine

open Config

/-! ### What END leaves in BUF (R31, R32) -/

section End

variable {p : Params} {m r : Memory} {es : List Event} {s t : State}

/-- The inversion of SCAN as an induction: a relation between BUF before, BUF after and the events holds of every scan if it
holds of the three ways to return and is kept by the extraction of a frame (R75 to R83). -/
theorem scan_result_induction {P : Memory → Memory → List Event → Prop} (short : ∀ m : Memory, m.length < 6 → P m m [])
    (noSync : ∀ m : Memory, 6 ≤ m.length → SYNC ∉ m → P m [] (diagEvents p .noSync m.length))
    (suspend : ∀ b m : Memory, 6 ≤ (b ++ m).length → SYNC ∉ b → suspended m = true → P (b ++ m) m (orphanEvents p b))
    (frame : ∀ (b f rest r : Memory) (ef er : List Event), SYNC ∉ b → isFrame f = true → classifyFrame p f = .ok ef →
      P rest r er → P (b ++ f ++ rest) r (orphanEvents p b ++ ef ++ er))
    (h : scan p m = .ok (r, es)) : P m r es := by
  induction m using scan_induction generalizing r es with
  | short m hm => rw [scan_short p hm] at h; cases h; exact short m hm
  | noSync m hm hs => rw [scan_noSync p hm hs] at h; cases h; exact noSync m hm hs
  | suspend b m hm hb hs => rw [scan_suspended p hm hb hs] at h; cases h; exact suspend b m hm hb hs
  | frame b f rest hm hb hf ih =>
    obtain ⟨q, er, hr⟩ := scan_total p rest
    obtain ⟨ef, hc, -⟩ := classifyFrame_ok p hf
    rw [scan_frame p hm hb hf hc hr] at h
    cases h
    exact frame b f rest r ef er hb hf hc (ih hr)

/-- SCAN returns with a BUF too short to scan, or on one where it suspends at the marker at the head. -/
theorem scan_leaves_short_or_suspended (h : scan p m = .ok (r, es)) : r.length < 6 ∨ suspended r = true :=
  scan_result_induction (P := fun _ r _ => r.length < 6 ∨ suspended r = true) (fun _ hm => .inl hm)
    (fun _ _ _ => .inl (by simp)) (fun _ _ _ _ hs => .inr hs) (fun _ _ _ _ _ _ _ _ _ hr => hr) h

/-- A suspended BUF of at least two bytes is the beginning of a frame whose length field it holds (R81). -/
theorem suspended_shape (h : suspended m = true) (hl : 2 ≤ m.length) :
    ∃ len rest, m = SYNC :: len :: rest ∧ m.length < len.toNat + 3 := by
  match m, h with
  | sync :: len :: rest, h =>
    simp only [suspended, totalLen, LEN_OVERHEAD_eq, Bool.and_eq_true, decide_eq_true_eq] at h
    exact ⟨len, rest, by rw [h.1], h.2⟩

/-- END completes with what SCAN leaves and emits (R69). -/
theorem exec_endChunk_next (h : exec .endChunk s = .next t) :
    ∃ r es, scan s.params s.buf = .ok (r, es) ∧ t = (s.setBuf r).emit es := by
  obtain ⟨r, es, hs⟩ := scan_total s.params s.buf
  rw [exec, execEndChunk_of_scan hs] at h
  cases h
  exact ⟨r, es, hs, rfl⟩

theorem endChunk_leaves_short_or_suspended (h : exec .endChunk s = .next t) : t.buf.length < 6 ∨ suspended t.buf = true := by
  obtain ⟨r, es, hs, rfl⟩ := exec_endChunk_next h
  exact scan_leaves_short_or_suspended hs

theorem endChunk_leaves_at_most_257 (h : exec .endChunk s = .next t) : t.buf.length ≤ 257 := by
  obtain hl | hs := endChunk_leaves_short_or_suspended h
  · omega
  · exact suspended_length hs

/-- PUSH appends its byte while there is room (R67). -/
theorem exec_push_of_room (b : Byte) (h : s.buf.length < s.params.bufCap) :
    exec (.push b) s = .next { s with buf := s.buf ++ [b] } := by
  rw [exec, execPush, State.pushByte_eq_setBuf, Memory.append_of_room b h, State.setBuf]

end End

/-- Settles O24: SCAN returns with fewer than 6 bytes or suspended at the marker; 6 bytes or more tell the two apart. -/
theorem bufferAfterEnd : Obligations.BufferAfterEnd := by
  intro s t h
  rw [xor_iff_not_iff', Nat.not_lt]
  constructor
  · intro hl
    have hs : suspended t.buf = true := (endChunk_leaves_short_or_suspended h).resolve_left (Nat.not_lt.mpr hl)
    obtain ⟨len, rest, hb, hlt⟩ := suspended_shape hs (by omega)
    exact ⟨len, rest, hb, hl, hlt⟩
  · rintro ⟨len, rest, -, hl, -⟩
    exact hl

/-- Settles O25: 257 bytes are fewer than the least legal BUF_CAP. -/
theorem endLeavesRoom : Obligations.EndLeavesRoom := by
  intro s t b h
  have hl := endChunk_leaves_at_most_257 h
  refine ⟨hl, fun hp => exec_push_of_room b ?_⟩
  have := (Params.wf_iff _).mp hp
  omega

/-! ### BUF is appended to or dropped from (R20) -/

section Writes

variable {s t : State}

theorem Memory.append_cases (cap : Nat) (m : Memory) (v : Byte) : m.append cap v = m ++ [v] ∨ m.append cap v = m := by
  by_cases h : m.length < cap
  · exact .inl (Memory.append_of_room v h)
  · exact .inr (Memory.append_of_full v (Nat.not_lt.mp h))

/-- PUSH appends, SCAN and RESET drop from the head, and the other rows keep BUF. -/
theorem exec_buf_suffix_or_append {i : Instr} (h : exec i s = .next t) : t.buf <:+ s.buf ∨ ∃ b, t.buf = s.buf ++ [b] := by
  obtain ⟨b, -, rfl⟩ | ⟨-, r, es, hs, rfl⟩ | ⟨-, rfl⟩ | ⟨-, rfl⟩ | ⟨-, bs, -, rfl⟩ | ⟨-, r, rfl⟩ := exec_next_cases h
  · obtain ha | hk := s.buf.append_cases s.params.bufCap b
    · exact .inr ⟨b, ha⟩
    · exact .inl (hk ▸ List.suffix_refl _)
  · exact .inl (scan_suffix hs)
  · exact .inl List.nil_suffix
  all_goals exact .inl (List.suffix_refl _)

end Writes

/-- Settles O58: of the events at the ports only a reset and an instruction write BUF. -/
theorem bufferIsAppendedOrDropped : Obligations.BufferIsAppendedOrDropped := by
  intro s t h
  obtain rfl | rfl | rfl | ⟨i, hi⟩ | rfl := step_next_cases h
  · exact .inl List.nil_suffix
  case inr.inr.inr.inl => exact exec_buf_suffix_or_append (s := s.dropLines.dropInput) hi
  all_goals exact .inl (List.suffix_refl _)

/-! ### The status outputs and the phase (R21, R23, R30) -/

section Status

variable {s : State} {m : Memory}

theorem State.full_iff (s : State) : s.full = true ↔ s.buf.length = s.params.bufCap := decide_eq_true_iff

/-- A 16-bit `buf_level` holds every length a legal BUF can have (R7, R17). -/
theorem State.bufLevel_toNat (h : s.inv = true) : s.bufLevel.toNat = s.buf.length := by
  obtain ⟨hp, hb, -⟩ := s.inv_iff.mp h
  have := (Params.wf_iff _).mp hp
  exact Nat.mod_eq_of_lt (by omega)

theorem phase_of_head_ne (h : m.head? ≠ some SYNC) : phase m = .awaitingSync := by
  match m, h with
  | [], _ => rfl
  | [b], h => exact if_neg (by simpa using h)
  | b :: _ :: _, h => exact if_neg (by simpa using h)

theorem phase_marker : phase [SYNC] = .awaitingLength := rfl
theorem phase_marker_cons (v : Byte) (r : List Byte) : phase (SYNC :: v :: r) = .awaitingBody := rfl

/-- The three forms of BUF that the phase tells apart, each with its phase (R21). -/
theorem phase_cases (m : Memory) :
    (m.head? ≠ some SYNC ∧ phase m = .awaitingSync) ∨ (m = [SYNC] ∧ phase m = .awaitingLength)
    ∨ ∃ v r, m = SYNC :: v :: r ∧ phase m = .awaitingBody := by
  by_cases h : m.head? = some SYNC
  · obtain ⟨r, rfl⟩ := List.head?_eq_some_iff.mp h
    cases r with
    | nil => exact .inr (.inl ⟨rfl, phase_marker⟩)
    | cons v r => exact .inr (.inr ⟨v, r, rfl, phase_marker_cons v r⟩)
  · exact .inl ⟨h, phase_of_head_ne h⟩

theorem phase_awaitingLength_iff : phase m = .awaitingLength ↔ m = [SYNC] := by
  obtain ⟨h, hp⟩ | ⟨rfl, hp⟩ | ⟨v, r, rfl, hp⟩ := phase_cases m
  · exact iff_of_false (by simp [hp]) (by rintro rfl; exact h rfl)
  · exact iff_of_true hp rfl
  · exact iff_of_false (by simp [hp]) (by simp)

theorem phase_awaitingBody_iff : phase m = .awaitingBody ↔ 2 ≤ m.length ∧ m.head? = some SYNC := by
  obtain ⟨h, hp⟩ | ⟨rfl, hp⟩ | ⟨v, r, rfl, hp⟩ := phase_cases m
  · exact iff_of_false (by simp [hp]) (fun hm => h hm.2)
  · exact iff_of_false (by simp [hp]) (by simp)
  · exact iff_of_true hp ⟨by simp, rfl⟩

theorem phase_awaitingSync_iff : phase m = .awaitingSync ↔ m.head? ≠ some SYNC := by
  obtain ⟨h, hp⟩ | ⟨rfl, hp⟩ | ⟨v, r, rfl, hp⟩ := phase_cases m
  · exact iff_of_true hp h
  · exact iff_of_false (by simp [hp]) (by simp)
  · exact iff_of_false (by simp [hp]) (by simp)

/-- The outputs of an empty BUF in a legal build (R30). -/
theorem State.outputs_of_buf_nil (hp : s.params.wf = true) (hb : s.buf = []) :
    s.bufLevel = 0 ∧ s.full = false ∧ phase s.buf = .awaitingSync := by
  have hcap := (Params.wf_iff _).mp hp
  have hfull : ¬ s.full = true := by
    rw [State.full_iff, hb, List.length_nil]
    omega
  exact ⟨by rw [State.bufLevel, hb]; rfl, Bool.eq_false_iff.mpr hfull, by rw [hb]; rfl⟩

end Status

/-- Settles O55: each output by the lemma about it. -/
theorem statusOutputsAndPhase : Obligations.StatusOutputsAndPhase :=
  ⟨fun s h => ⟨s.bufLevel_toNat h, s.full_iff⟩,
    fun _ => ⟨phase_awaitingLength_iff, phase_awaitingBody_iff, phase_awaitingSync_iff⟩⟩

/-- Settles O1: each of the three resets leaves BUF empty and the parameters as they were. -/
theorem resetValues : Obligations.ResetValues := by
  refine ⟨?_, fun s hp hr => ?_, fun s hp => ?_⟩
  · obtain ⟨hl, hf, hph⟩ := State.reset.outputs_of_buf_nil (by decide) rfl
    exact ⟨rfl, hl, hf, hph, rfl⟩
  · obtain ⟨hl, hf, hph⟩ := s.dropLines.hardwareReset.outputs_of_buf_nil hp rfl
    exact ⟨_, if_pos hr, rfl, hl, hf, hph, rfl, rfl⟩
  · obtain ⟨hl, hf, hph⟩ := s.clearBuf.outputs_of_buf_nil hp rfl
    exact ⟨_, rfl, rfl, hl, hf, hph, rfl⟩

/-! ### The ranges of a Height (R109) -/

section Heights

variable {rule : MultiPointRule} {p0 p1 p2 p3 q0 q1 q2 : Byte} {h : Height}

theorem digitsOf_length_le_of_prefix {a b : List Glyph} (h : a <+: b) : (digitsOf a).length ≤ (digitsOf b).length := by
  obtain ⟨c, rfl⟩ := h
  simp

theorem beforePoint_prefix (s : List Glyph) : beforePoint s <+: s := by
  induction s using beforePoint.induct with
  | case1 => exact List.prefix_refl _
  | case2 d s ih => exact (List.prefix_cons_inj _).mpr ih
  | case3 s => exact List.nil_prefix

theorem cutSecondPoint_prefix (s : List Glyph) : cutSecondPoint s <+: s := by
  induction s using cutSecondPoint.induct with
  | case1 => exact List.prefix_refl _
  | case2 d s ih => exact (List.prefix_cons_inj _).mpr ih
  | case3 s => exact (List.prefix_cons_inj _).mpr (beforePoint_prefix s)

theorem afterPoint_cutSecondPoint (s : List Glyph) : afterPoint (cutSecondPoint s) = beforePoint (afterPoint s) := by
  induction s using cutSecondPoint.induct with
  | case1 => rfl
  | case2 d s ih => exact ih
  | case3 s => rfl

/-- A point stands behind the digit of its own byte, so at most the bytes after the first have digits behind the point. -/
theorem afterPoint_displayString_length (vs : List Byte) :
    (digitsOf (afterPoint (displayString vs))).length ≤ vs.length - 1 := by
  induction vs with
  | nil => exact Nat.le_refl _
  | cons v vs ih =>
    rw [← List.singleton_append, displayString_append, List.length_append, List.length_singleton, Nat.add_sub_cancel_left]
    cases hv : (decode7 v).dp with
    | false =>
      rw [afterPoint_append (pointsIn_displayString_none (by simpa using hv))]
      omega
    | true =>
      have hafter : afterPoint (displayString [v] ++ displayString vs) = displayString vs := by
        cases hd : (decode7 v).digit <;> simp [displayString, glyphsOf, hv, hd, afterPoint]
      rw [hafter, digitsOf_displayString]
      exact keptDigits_length vs

/-- PARSE of a string whose digits, and those behind its point, are bounded in number (R104). -/
theorem parse_bounds {g : List Glyph} {k n : Nat} (hp : parse g = .valid h) (hk : (digitsOf g).length ≤ k)
    (hn : (digitsOf (afterPoint g)).length ≤ n) : h.mant < 10 ^ k ∧ h.scale ≤ n := by
  unfold parse at hp
  split at hp
  · cases hp
  · cases hp
    rw [decimal_eq_numeral]
    exact ⟨(numeral_lt _).trans_le (Nat.pow_le_pow_right (by omega) hk), hn⟩

/-- Variant A parses the display string or, under PREFIX, its part before the second point (R100 to R103). -/
theorem assembleA_valid_cases (ha : assembleA rule p0 p1 p2 p3 = .valid h) :
    parse (displayString [p0, p1, p2, p3]) = .valid h ∨ parse (cutSecondPoint (displayString [p0, p1, p2, p3])) = .valid h := by
  unfold assembleA at ha
  split at ha
  · cases ha
  · split at ha
    · cases rule with
      | invalid => cases ha
      | prefixCut => exact .inr ha
    · exact .inl ha

theorem assembleA_bounds (ha : assembleA rule p0 p1 p2 p3 = .valid h) : h.mant ≤ 9999 ∧ h.scale ≤ 3 := by
  have hk : (digitsOf (displayString [p0, p1, p2, p3])).length ≤ 4 := by
    rw [digitsOf_displayString]
    exact keptDigits_length _
  have hn : (digitsOf (afterPoint (displayString [p0, p1, p2, p3]))).length ≤ 3 := afterPoint_displayString_length _
  suffices hb : h.mant < 10 ^ 4 ∧ h.scale ≤ 3 from ⟨Nat.le_of_lt_succ hb.1, hb.2⟩
  obtain hp | hp := assembleA_valid_cases ha
  · exact parse_bounds hp hk hn
  · refine parse_bounds hp ((digitsOf_length_le_of_prefix (cutSecondPoint_prefix _)).trans hk) ?_
    rw [afterPoint_cutSecondPoint]
    exact (digitsOf_length_le_of_prefix (beforePoint_prefix _)).trans hn

theorem assembleB_bounds (hb : assembleB q0 q1 q2 = .valid h) : h.mant ≤ 999 ∧ h.scale ≤ 1 := by
  unfold assembleB at hb
  split at hb
  · cases hb
    dsimp only
    exact ⟨by omega, by split <;> omega⟩
  · cases hb

end Heights

/-! ### The events a scan emits fit their records (R59 to R62) -/

/-- The ranges of an event's fields in a build with this BUF_CAP: heights (R27), an unknown payload of `L - 1` bytes (R61), a
diagnostic's count (R117). -/
def Event.fits (cap : Nat) : Event → Prop
  | .height h => h.mant ≤ 9999 ∧ h.scale ≤ 3
  | .status _ _ => True
  | .unknown len _ payload => payload.length = len.toNat - 1
  | .diag _ count => 1 ≤ count ∧ count ≤ cap

section Fits

variable {p : Params} {cap : Nat} {es : List Event}

theorem DiagReason.code_cases (reason : DiagReason) : reason.code = REASON_NO_SYNC ∨ reason.code = REASON_ORPHAN := by
  cases reason with
  | noSync => exact .inl rfl
  | orphan => exact .inr rfl

/-- Fields in range survive the cut to their record's widths, so the record's row is well-formed. -/
theorem Event.row_wf_of_fits {e : Event} (hcap : cap ≤ 65535) (h : e.fits cap) : e.row.wf = true := by
  cases e with
  | height h' =>
    obtain ⟨hm, hs⟩ := h
    refine (Instr.wf_evHeight_iff _ _).mpr ⟨?_, ?_⟩ <;> simp only [BitVec.toNat_ofNat] <;> omega
  | status v1 v2 => rfl
  | unknown len ty payload => exact (Instr.wf_evUnknown_iff _ _ _).mpr h
  | diag reason count =>
    obtain ⟨h1, hc⟩ := h
    refine (Instr.wf_evDiag_iff _ _).mpr ⟨reason.code_cases, ?_⟩
    simp only [BitVec.toNat_ofNat]
    omega

theorem heightEvents_fit {r : HeightReading} (h : ∀ v, r = .valid v → v.mant ≤ 9999 ∧ v.scale ≤ 3) :
    ∀ e ∈ heightEvents r, e.fits cap := by
  cases r with
  | valid v => simpa [heightEvents, Event.fits] using h v rfl
  | invalid => simp [heightEvents]

theorem diagEvents_fit {reason : DiagReason} {n : Nat} (h1 : 1 ≤ n) (hc : n ≤ cap) :
    ∀ e ∈ diagEvents p reason n, e.fits cap := by
  unfold diagEvents
  split
  · simpa [Event.fits] using ⟨h1, hc⟩
  · simp

theorem classifyFrame_fit {f : List Byte} (hf : isFrame f = true) (h : classifyFrame p f = .ok es) :
    ∀ e ∈ es, e.fits cap := by
  obtain ⟨p0, p1, p2, p3, m7, m8, t, rfl⟩ | ⟨v1, v2, m5, t, rfl⟩ | ⟨len, ty, rest, rfl, hr, hH, hS⟩ := isFrame_cases hf
  · rw [classifyFrame_height] at h
    cases h
    exact heightEvents_fit fun _ => assembleA_bounds
  · rw [classifyFrame_status] at h
    cases h
    simp [statusBranch, Event.fits]
  · rw [classifyFrame_unknown p rest hH hS] at h
    cases h
    simp [unknownBranch, Event.fits, hr]

theorem classifyOrphan_fit {b : List Byte} (h : classifyOrphan b = .ok es) : ∀ e ∈ es, e.fits cap := by
  obtain ⟨d0, d1, d2, rest, -, -, hb⟩ | ⟨-, hb⟩ := classifyOrphan_cases b <;> rw [hb] at h <;> cases h
  · refine heightEvents_fit fun v hv => ?_
    obtain ⟨hm, hs⟩ := assembleB_bounds hv
    omega
  · simp

theorem orphanEvents_fit {b : List Byte} (hc : b.length ≤ cap) : ∀ e ∈ orphanEvents p b, e.fits cap := by
  by_cases hb : b = []
  · simp [hb]
  · obtain ⟨eb, he, -⟩ := classifyOrphan_ok b
    rw [orphanEvents_of_ok hb he, List.forall_mem_append]
    exact ⟨classifyOrphan_fit he, diagEvents_fit (List.length_pos_iff.mpr hb) hc⟩

/-- The counts are lengths of parts of BUF, the other fields are the classifier's. -/
theorem scan_events_fit {m r : Memory} (h : scan p m = .ok (r, es)) (hm : m.length ≤ cap) : ∀ e ∈ es, e.fits cap := by
  refine scan_result_induction (P := fun m _ es => m.length ≤ cap → ∀ e ∈ es, e.fits cap) ?_ ?_ ?_ ?_ h hm
  case refine_1 => simp
  case refine_2 => exact fun m hl _ hc => diagEvents_fit (by omega) hc
  case refine_3 =>
    intro b m _ _ _ hc
    rw [List.length_append] at hc
    exact orphanEvents_fit (by omega)
  case refine_4 =>
    intro b f rest r ef er _ hf hcl ih hc
    simp only [List.length_append] at hc
    rw [List.forall_mem_append, List.forall_mem_append]
    exact ⟨⟨orphanEvents_fit (by omega), classifyFrame_fit hf hcl⟩, ih (by omega)⟩

end Fits

/-- Settles O31: the events fit, and a fitting event's row is well-formed. -/
theorem emittedEventsFitTheirRecords : Obligations.EmittedEventsFitTheirRecords := by
  intro p m r es hp hm h e he
  have hfit : e.fits p.bufCap := scan_events_fit h (of_decide_eq_true hm) e he
  refine ⟨Event.row_wf_of_fits ((Params.wf_iff p).mp hp).2 hfit, e.encode_row, ?_, ?_⟩
  · rintro v rfl
    exact hfit
  · rintro reason count rfl
    exact hfit

end Sys2Proof.Machine

/-! ## The memory family: the bytes of a record (O11) -/

namespace Sys2Proof

/-- A 16-bit field's high byte, by the number it holds. -/
theorem highByte_ofNat (n : Nat) : highByte (BitVec.ofNat 16 n) = BitVec.ofNat 8 (n / 256) := by
  apply BitVec.eq_of_toNat_eq
  simp only [highByte, BitVec.extractLsb'_toNat, BitVec.toNat_ofNat, Nat.shiftRight_eq_div_pow]
  omega

theorem lowByte_ofNat (n : Nat) : lowByte (BitVec.ofNat 16 n) = BitVec.ofNat 8 n := by
  apply BitVec.eq_of_toNat_eq
  simp only [lowByte, BitVec.extractLsb'_toNat, BitVec.toNat_ofNat, Nat.shiftRight_zero]
  omega

/-- The HeightEvent record byte by byte (R59), the most significant byte of `mant` first (R38). -/
theorem recordHeight_ofNat (n : Nat) (scale : Byte) :
    recordHeight (BitVec.ofNat 16 n) scale = [0x01, BitVec.ofNat 8 (n / 256), BitVec.ofNat 8 n, scale] := by
  rw [recordHeight, highByte_ofNat, lowByte_ofNat]
  rfl

/-- The DiagnosticEvent record byte by byte (R62), the most significant byte of the count first (R38). -/
theorem recordDiag_ofNat (reason : Byte) (n : Nat) :
    recordDiag reason (BitVec.ofNat 16 n) = [0x04, reason, BitVec.ofNat 8 (n / 256), BitVec.ofNat 8 n] := by
  rw [recordDiag, highByte_ofNat, lowByte_ofNat]
  rfl

end Sys2Proof

namespace Sys2Proof.Machine

/-- Settles O11: the wire order is that of any non-empty record; the bytes of a record with a 16-bit field are those of the number
that the field holds. -/
theorem recordsOnTheWire : Obligations.RecordsOnTheWire := by
  intro e
  refine ⟨wireBytes_data e.record, wireBytes_last e.record_ne_nil, e.encode_row, ?_⟩
  cases e with
  | height h => exact ⟨recordHeight_ofNat h.mant _, rfl⟩
  | status value1 value2 => exact ⟨rfl, rfl⟩
  | unknown len ty payload => exact ⟨rfl, rfl⟩
  | diag reason count =>
    cases reason with
    | noSync => exact ⟨recordDiag_ofNat _ count, rfl⟩
    | orphan => exact ⟨recordDiag_ofNat _ count, rfl⟩

end Sys2Proof.Machine

/-! ## The encoding family: the decoder against the encoder, format by format, and the step that runs a decoded word
(O5 to O10, O48 to O51) -/

namespace Sys2Proof

open Config

/-! ### Host command words (R48, R49) -/

section HostCommandWord

@[simp] theorem hcwOp_hcwWord (op : BitVec 2) (data : Byte) : hcwOp (hcwWord op data) = op :=
  BitVec.extractLsb'_append_eq_left

@[simp] theorem hcwData_hcwWord (op : BitVec 2) (data : Byte) : hcwData (hcwWord op data) = data :=
  BitVec.extractLsb'_append_eq_right

@[simp] theorem hcwWord_hcwOp_hcwData (w : Hcw) : hcwWord (hcwOp w) (hcwData w) = w :=
  BitVec.extractLsb'_append_extractLsb'

theorem hcwData_eq_setWidth (w : Hcw) : hcwData w = w.setWidth 8 := by
  rw [hcwData, BitVec.setWidth_eq_extractLsb' (by decide)]

theorem hcwWord_inj {op op' : BitVec 2} {data data' : Byte} : hcwWord op data = hcwWord op' data' ↔ op = op' ∧ data = data' :=
  ⟨fun h => ⟨by simpa using congrArg hcwOp h, by simpa using congrArg hcwData h⟩, fun ⟨ho, hd⟩ => by rw [ho, hd]⟩

theorem hcwWord_and (op op' : BitVec 2) (data data' : Byte) :
    hcwWord op data &&& hcwWord op' data' = hcwWord (op &&& op') (data &&& data') :=
  BitVec.and_append

/-- The mask 0x300 of the opcode map reads the field `op`. -/
theorem and_opMask_eq_iff (w : Hcw) (op : BitVec 2) : w &&& 0x300#10 = hcwWord op 0#8 ↔ hcwOp w = op := by
  have hmask : w &&& 0x300#10 = hcwWord (hcwOp w) 0#8 := by
    calc w &&& 0x300#10 = hcwWord (hcwOp w) (hcwData w) &&& hcwWord (BitVec.allOnes 2) 0#8 := by
          rw [hcwWord_hcwOp_hcwData]; rfl
      _ = hcwWord (hcwOp w) 0#8 := by rw [hcwWord_and, BitVec.and_allOnes, BitVec.and_zero]
  simp [hmask, hcwWord_inj]

/-- The mask 0x0FF of the opcode map reads the field `data`. -/
theorem and_dataMask_eq_iff (w : Hcw) (data : Byte) : w &&& 0x0FF#10 = hcwWord 0#2 data ↔ hcwData w = data := by
  have hmask : w &&& 0x0FF#10 = hcwWord 0#2 (hcwData w) := by
    calc w &&& 0x0FF#10 = hcwWord (hcwOp w) (hcwData w) &&& hcwWord 0#2 (BitVec.allOnes 8) := by
          rw [hcwWord_hcwOp_hcwData]; rfl
      _ = hcwWord 0#2 (hcwData w) := by rw [hcwWord_and, BitVec.and_allOnes, BitVec.and_zero]
  simp [hmask, hcwWord_inj]

theorem decodeHcw_push (b : Byte) : decodeHcw (hcwWord 0#2 b) = .push b := by simp [decodeHcw]
theorem decodeHcw_endChunk : decodeHcw (hcwWord 1#2 0#8) = .endChunk := rfl
theorem decodeHcw_reset : decodeHcw (hcwWord 2#2 0#8) = .reset := rfl
theorem decodeHcw_reserved01 {data : Byte} (h : data ≠ 0#8) : decodeHcw (hcwWord 1#2 data) = .reserved01 data := by
  simp [decodeHcw, h]
theorem decodeHcw_reserved10 {data : Byte} (h : data ≠ 0#8) : decodeHcw (hcwWord 2#2 data) = .reserved10 data := by
  simp [decodeHcw, h]
theorem decodeHcw_reserved11 (data : Byte) : decodeHcw (hcwWord 3#2 data) = .reserved11 data := by simp [decodeHcw]

/-- A host command word is one of the six rows' words (R49). -/
theorem hcw_cases (w : Hcw) :
    (∃ b, w = hcwWord 0#2 b) ∨ w = hcwWord 1#2 0#8 ∨ w = hcwWord 2#2 0#8 ∨ (∃ data, data ≠ 0#8 ∧ w = hcwWord 1#2 data)
      ∨ (∃ data, data ≠ 0#8 ∧ w = hcwWord 2#2 data) ∨ ∃ data, w = hcwWord 3#2 data := by
  have hop : ∀ op : BitVec 2, op = 0#2 ∨ op = 1#2 ∨ op = 2#2 ∨ op = 3#2 := by decide
  rw [← hcwWord_hcwOp_hcwData w]
  rcases hop (hcwOp w) with h | h | h | h <;> simp [hcwWord_inj, h, em]

/-- The decoder's row of a host command word is well-formed and stands for that word. -/
theorem decodeHcw_sound (w : Hcw) : (decodeHcw w).wf = true ∧ encode (decodeHcw w) = .hcw w := by
  obtain ⟨b, rfl⟩ | rfl | rfl | ⟨data, hd, rfl⟩ | ⟨data, hd, rfl⟩ | ⟨data, rfl⟩ := hcw_cases w
  · rw [decodeHcw_push]; exact ⟨rfl, rfl⟩
  · exact ⟨rfl, rfl⟩
  · exact ⟨rfl, rfl⟩
  · rw [decodeHcw_reserved01 hd]; exact ⟨decide_eq_true hd, rfl⟩
  · rw [decodeHcw_reserved10 hd]; exact ⟨decide_eq_true hd, rfl⟩
  · rw [decodeHcw_reserved11]; exact ⟨rfl, rfl⟩

/-- The reserved words are those that are no PUSH, no END and no RESET (R50). -/
theorem decodeHcw_isReserved_iff (w : Hcw) :
    (decodeHcw w).isReserved = true ↔ hcwOp w ≠ 0#2 ∧ w ≠ hcwWord 1#2 0#8 ∧ w ≠ hcwWord 2#2 0#8 := by
  obtain ⟨b, rfl⟩ | rfl | rfl | ⟨data, hd, rfl⟩ | ⟨data, hd, rfl⟩ | ⟨data, rfl⟩ := hcw_cases w
  · rw [decodeHcw_push]; simp [Instr.isReserved]
  · rw [decodeHcw_endChunk]; simp [Instr.isReserved]
  · rw [decodeHcw_reset]; simp [Instr.isReserved]
  · rw [decodeHcw_reserved01 hd]; simp [Instr.isReserved, hcwWord_inj, hd]
  · rw [decodeHcw_reserved10 hd]; simp [Instr.isReserved, hcwWord_inj, hd]
  · rw [decodeHcw_reserved11]; simp [Instr.isReserved, hcwWord_inj]

end HostCommandWord

/-! ### Frames (R51, R52) -/

section Frame

theorem decodeFrame_height (p0 p1 p2 p3 m7 m8 trailer : Byte) :
    decodeFrame [SYNC, H_LEN, H_TYPE, p0, p1, p2, p3, m7, m8, trailer] = .ok (.height p0 p1 p2 p3 m7 m8 trailer) := rfl

theorem decodeFrame_status (value1 value2 m5 trailer : Byte) :
    decodeFrame [SYNC, S_LEN, S_TYPE, value1, value2, m5, trailer] = .ok (.status value1 value2 m5 trailer) := rfl

theorem decodeFrame_unknown {len ty : Byte} {rest : List Byte} (h : (Instr.unknown len ty rest).wf = true) :
    decodeFrame (SYNC :: len :: ty :: rest) = .ok (.unknown len ty rest) := by
  obtain ⟨hr, hH, hS⟩ := (Instr.wf_unknown_iff len ty rest).mp h
  simp [decodeFrame, decodeFrameClass, totalLen, hr, hH, hS]

/-- Only whole frames have a row. -/
theorem isFrame_of_decodeFrame {m : List Byte} {i : Instr} (h : decodeFrame m = .ok i) : Machine.isFrame m = true := by
  unfold decodeFrame at h
  split at h
  · split_ifs at h with hs hl
    exact Bool.and_eq_true_iff.mpr ⟨decide_eq_true (not_not.mp hs), decide_eq_true (not_not.mp hl)⟩
  · cases h

/-- The row read from a frame is well-formed and stands for that frame. -/
theorem decodeFrame_sound {m : List Byte} {i : Instr} (h : decodeFrame m = .ok i) : i.wf = true ∧ encode i = .frame m := by
  obtain ⟨p0, p1, p2, p3, m7, m8, trailer, rfl⟩ | ⟨v1, v2, m5, trailer, rfl⟩ | ⟨len, ty, rest, rfl, hr, hH, hS⟩ :=
    Machine.isFrame_cases (isFrame_of_decodeFrame h)
  · cases h; exact ⟨rfl, rfl⟩
  · cases h; exact ⟨rfl, rfl⟩
  · have hwf := (Instr.wf_unknown_iff len ty rest).mpr ⟨hr, hH, hS⟩
    rw [decodeFrame_unknown hwf] at h
    cases h
    exact ⟨hwf, rfl⟩

end Frame

/-! ### Short forms (R56, R93) -/

section Short

/-- A well-formed short form: at least 3 bytes behind the digits, and no SYNC byte (R56, R93). -/
theorem Instr.wf_shortHeight_iff (d0 d1 d2 : Byte) (rest : List Byte) :
    (Instr.shortHeight d0 d1 d2 rest).wf = true ↔ 3 ≤ rest.length ∧ SYNC ∉ d0 :: d1 :: d2 :: rest := by
  rw [Instr.wf, SF_MIN_eq, SF_PAY_HI_eq, Bool.and_eq_true, decide_eq_true_eq, Bool.not_eq_true', ← Bool.not_eq_true,
    List.contains_iff_mem]
  exact and_congr_left' (by omega)

/-- The two bytes that mark a short form are no SYNC bytes. -/
theorem sync_mem_shortForm_iff (r : List Byte) : SYNC ∈ SF_B0 :: SF_B1 :: r ↔ SYNC ∈ r := by
  have h0 : SYNC ≠ SF_B0 := by decide
  have h1 : SYNC ≠ SF_B1 := by decide
  simp [h0, h1]

theorem decodeShort_shortHeight {d0 d1 d2 : Byte} {rest : List Byte} (h : (Instr.shortHeight d0 d1 d2 rest).wf = true) :
    decodeShort (SF_B0 :: SF_B1 :: d0 :: d1 :: d2 :: rest) = .ok (.shortHeight d0 d1 d2 rest) := by
  obtain ⟨hlen, hsync⟩ := (Instr.wf_shortHeight_iff d0 d1 d2 rest).mp h
  have hc : (SF_B0 :: SF_B1 :: d0 :: d1 :: d2 :: rest).contains SYNC = false := by
    simpa using mt (sync_mem_shortForm_iff _).mp hsync
  rw [decodeShort, hc]
  simp [hlen]

/-- The row read from an orphan span is well-formed and stands for that span. -/
theorem decodeShort_sound {b : List Byte} {i : Instr} (h : decodeShort b = .ok i) : i.wf = true ∧ encode i = .short b := by
  unfold decodeShort at h
  split_ifs at h with hsync
  split at h
  next b0 b1 d0 d1 d2 rest =>
    split_ifs at h with hform
    obtain ⟨hlen, rfl, rfl⟩ := hform
    cases h
    rw [SF_MIN_eq] at hlen
    rw [List.contains_iff_mem, sync_mem_shortForm_iff] at hsync
    exact ⟨(Instr.wf_shortHeight_iff d0 d1 d2 rest).mpr ⟨by omega, hsync⟩, rfl⟩
  next => cases h

end Short

/-! ### Segment bytes (R57, R95 to R98) -/

section Segment

@[simp] theorem segPoint_segByte (dp : Bool) (seg : SegCode) : segPoint (segByte dp seg) = dp := by
  rw [segPoint, segByte, BitVec.getLsbD_append]
  simp

@[simp] theorem segCode_segByte (dp : Bool) (seg : SegCode) : segCode (segByte dp seg) = seg :=
  BitVec.extractLsb'_append_eq_right

@[simp] theorem segByte_segPoint_segCode (v : Byte) : segByte (segPoint v) (segCode v) = v := by
  calc segByte (segPoint v) (segCode v) = BitVec.cons v.msb (v.setWidth 7) := by
        rw [BitVec.msb_eq_getLsbD_last, BitVec.setWidth_eq_extractLsb' (by decide), BitVec.cons]
        rfl
    _ = v := BitVec.cons_msb_setWidth v

theorem lookup_segtab_eq_some_iff : ∀ (seg : SegCode) (d : Fin 10), SEGTAB.lookup seg = some d ↔ SEGCODE d = seg := by decide

theorem segByte_segcode_ne_blank (dp : Bool) (d : Fin 10) : segByte dp (SEGCODE d) ≠ BLANK := by
  have hz : ∀ d, SEGCODE d ≠ segCode BLANK := by decide
  exact fun h => hz d (by rw [← h, segCode_segByte])

theorem encode_segRow (d : Fin 10) (dp : Bool) : encode (segRow d dp) = .seg7 (segByte dp (SEGCODE d)) := by
  fin_cases d <;> rfl

theorem segRow_wf (d : Fin 10) (dp : Bool) : (segRow d dp).wf = true := by
  fin_cases d <;> rfl

/-- The byte of a digit, with or without its point, decodes to the digit's row. -/
theorem decodeSeg7_segcode (d : Fin 10) (dp : Bool) : decodeSeg7 (segByte dp (SEGCODE d)) = segRow d dp := by
  have hd : SEGTAB.lookup (SEGCODE d) = some d := (lookup_segtab_eq_some_iff _ d).mpr rfl
  simp [decodeSeg7, segByte_segcode_ne_blank, hd]

/-- A well-formed SEG_INVALID: a code SEGTAB does not list, and not the blank byte (R98). -/
theorem Instr.wf_segInvalid_iff (dp : Bool) (seg : SegCode) :
    (Instr.segInvalid dp seg).wf = true ↔ SEGTAB.lookup seg = none ∧ segByte dp seg ≠ BLANK := by
  simp [Instr.wf, segByte]

theorem decodeSeg7_segInvalid {dp : Bool} {seg : SegCode} (h : (Instr.segInvalid dp seg).wf = true) :
    decodeSeg7 (segByte dp seg) = .segInvalid dp seg := by
  obtain ⟨hl, hb⟩ := (Instr.wf_segInvalid_iff dp seg).mp h
  simp [decodeSeg7, hb, hl]

/-- The row of a segment byte is well-formed and stands for that byte. -/
theorem decodeSeg7_sound (v : Byte) : (decodeSeg7 v).wf = true ∧ encode (decodeSeg7 v) = .seg7 v := by
  unfold decodeSeg7
  split_ifs with hb
  · exact ⟨rfl, by rw [hb]; rfl⟩
  · split
    next d hd =>
      refine ⟨segRow_wf d _, ?_⟩
      rw [encode_segRow, (lookup_segtab_eq_some_iff _ d).mp hd, segByte_segPoint_segCode]
    next hn =>
      refine ⟨(Instr.wf_segInvalid_iff _ _).mpr ⟨hn, ?_⟩, ?_⟩
      · rwa [segByte_segPoint_segCode]
      · rw [encode, segByte_segPoint_segCode]

end Segment

/-! ### Event records (R58 to R62) -/

section Record

@[simp] theorem highByte_halfOfBytes (hi lo : Byte) : highByte (halfOfBytes hi lo) = hi := BitVec.extractLsb'_append_eq_left
@[simp] theorem lowByte_halfOfBytes (hi lo : Byte) : lowByte (halfOfBytes hi lo) = lo := BitVec.extractLsb'_append_eq_right
@[simp] theorem halfOfBytes_highByte_lowByte (h : Half) : halfOfBytes (highByte h) (lowByte h) = h :=
  BitVec.extractLsb'_append_extractLsb'

theorem highByte_eq_setWidth (h : Half) : highByte h = (h >>> 8).setWidth 8 := rfl
theorem lowByte_eq_setWidth (h : Half) : lowByte h = h.setWidth 8 := by
  rw [lowByte, BitVec.setWidth_eq_extractLsb' (by decide)]

theorem decodeEvrec_recordHeight (mant : Half) (scale : Byte) :
    decodeEvrec (recordHeight mant scale) = .ok (.evHeight mant scale) := by
  calc decodeEvrec (recordHeight mant scale) = .ok (.evHeight (halfOfBytes (highByte mant) (lowByte mant)) scale) := rfl
    _ = .ok (.evHeight mant scale) := by rw [halfOfBytes_highByte_lowByte]

theorem decodeEvrec_recordStatus (value1 value2 : Byte) :
    decodeEvrec (recordStatus value1 value2) = .ok (.evStatus value1 value2) := rfl

theorem decodeEvrec_recordUnknown (len ty : Byte) {payload : List Byte} (h : payload.length ≤ 254) :
    decodeEvrec (recordUnknown len ty payload) = .ok (.evUnknown len ty payload) := by
  have hn : (BitVec.ofNat 8 payload.length).toNat = payload.length := by rw [BitVec.toNat_ofNat]; omega
  have hfit : payload.length = (BitVec.ofNat 8 payload.length).toNat ∧ (BitVec.ofNat 8 payload.length).toNat ≤ PAYLOAD_MAX := by
    rw [hn, PAYLOAD_MAX_eq]; exact ⟨rfl, h⟩
  exact if_pos hfit

theorem decodeEvrec_recordDiag (reason : Byte) (count : Half) :
    decodeEvrec (recordDiag reason count) = .ok (.evDiag reason count) := by
  calc decodeEvrec (recordDiag reason count) = .ok (.evDiag reason (halfOfBytes (highByte count) (lowByte count))) := rfl
    _ = .ok (.evDiag reason count) := by rw [halfOfBytes_highByte_lowByte]

/-- The row read from a record stands for that record. -/
theorem encode_of_decodeEvrec {r : List Byte} {i : Instr} (h : decodeEvrec r = .ok i) : encode i = .evrec r := by
  match r, h with
  | kind :: body, h =>
    simp only [decodeEvrec] at h
    split_ifs at h with hheight hstatus hunknown hdiag
    · subst hheight
      split at h <;> cases h
      simp [encode, recordHeight]
    · subst hstatus
      split at h <;> cases h
      rfl
    · subst hunknown
      split at h
      next len ty n payload =>
        split_ifs at h with hn
        cases h
        rw [encode, recordUnknown, hn.1, BitVec.ofNat_toNat, BitVec.setWidth_eq]
      next => cases h
    · subst hdiag
      split at h <;> cases h
      simp [encode, recordDiag]

end Record

/-! ### The obligations on the decoder -/

/-- Settles O8: the decoder's equation on the word of each row; a digit's row is `segRow` of the digit. -/
theorem decodeOfEncode : Obligations.DecodeOfEncode := by
  intro i hwf
  cases i with
  | push b => exact congrArg Except.ok (decodeHcw_push b)
  | endChunk => rfl
  | reset => rfl
  | reserved01 data => exact congrArg Except.ok (decodeHcw_reserved01 (of_decide_eq_true hwf))
  | reserved10 data => exact congrArg Except.ok (decodeHcw_reserved10 (of_decide_eq_true hwf))
  | reserved11 data => exact congrArg Except.ok (decodeHcw_reserved11 data)
  | height p0 p1 p2 p3 m7 m8 trailer => exact decodeFrame_height p0 p1 p2 p3 m7 m8 trailer
  | status value1 value2 m5 trailer => exact decodeFrame_status value1 value2 m5 trailer
  | unknown len ty rest => exact decodeFrame_unknown hwf
  | shortHeight d0 d1 d2 rest => exact decodeShort_shortHeight hwf
  | segBlank => rfl
  | seg0 dp => exact congrArg Except.ok (decodeSeg7_segcode 0 dp)
  | seg1 dp => exact congrArg Except.ok (decodeSeg7_segcode 1 dp)
  | seg2 dp => exact congrArg Except.ok (decodeSeg7_segcode 2 dp)
  | seg3 dp => exact congrArg Except.ok (decodeSeg7_segcode 3 dp)
  | seg4 dp => exact congrArg Except.ok (decodeSeg7_segcode 4 dp)
  | seg5 dp => exact congrArg Except.ok (decodeSeg7_segcode 5 dp)
  | seg6 dp => exact congrArg Except.ok (decodeSeg7_segcode 6 dp)
  | seg7 dp => exact congrArg Except.ok (decodeSeg7_segcode 7 dp)
  | seg8 dp => exact congrArg Except.ok (decodeSeg7_segcode 8 dp)
  | seg9 dp => exact congrArg Except.ok (decodeSeg7_segcode 9 dp)
  | segInvalid dp seg => exact congrArg Except.ok (decodeSeg7_segInvalid hwf)
  | evHeight mant scale => exact decodeEvrec_recordHeight mant scale
  | evStatus value1 value2 => exact decodeEvrec_recordStatus value1 value2
  | evUnknown len ty payload =>
    have hlen := (Instr.wf_evUnknown_iff len ty payload).mp hwf
    exact decodeEvrec_recordUnknown len ty (by omega)
  | evDiag reason count => exact decodeEvrec_recordDiag reason count

/-- Settles O9: format by format, the row the decoder reads stands for the word it was read from. -/
theorem encodeOfDecode : Obligations.EncodeOfDecode := by
  intro c i h
  cases c with
  | hcw w => cases h; exact (decodeHcw_sound w).2
  | frame m => exact (decodeFrame_sound h).2
  | short b => exact (decodeShort_sound h).2
  | seg7 v => cases h; exact (decodeSeg7_sound v).2
  | evrec r => exact encode_of_decodeEvrec h

/-- Settles O10: format by format; event records are left out. -/
theorem decodedWordsAreWellFormed : Obligations.DecodedWordsAreWellFormed := by
  intro c i h hc
  cases c with
  | hcw w => cases h; exact (decodeHcw_sound w).1
  | frame m => exact (decodeFrame_sound h).1
  | short b => exact (decodeShort_sound h).1
  | seg7 v => cases h; exact (decodeSeg7_sound v).1
  | evrec r => exact absurd rfl hc

/-- Settles O5: the masks read the two fields the decoder tests. -/
theorem hcwOpcodeMap : Obligations.HcwOpcodeMap := by
  intro w
  have hdata : w &&& 0x0FF ≠ 0 → hcwData w ≠ 0#8 := mt (and_dataMask_eq_iff w 0#8).mpr
  rw [← hcwData_eq_setWidth]
  refine ⟨fun h => ?_, ?_, ?_, fun h hd => ?_, fun h hd => ?_, fun h => ?_⟩
  · simp [decodeHcw, (and_opMask_eq_iff w 0#2).mp h]
  · rintro rfl; exact decodeHcw_endChunk
  · rintro rfl; exact decodeHcw_reset
  · simp [decodeHcw, (and_opMask_eq_iff w 1#2).mp h, hdata hd]
  · simp [decodeHcw, (and_opMask_eq_iff w 2#2).mp h, hdata hd]
  · simp [decodeHcw, (and_opMask_eq_iff w 3#2).mp h]

/-- Settles O6: the count is over the 1024 words themselves; which words are reserved follows from the rows' words. -/
theorem reservedWordsAreNoOps : Obligations.ReservedWordsAreNoOps := by
  refine ⟨by decide +kernel, fun w => ?_, fun data s => ⟨rfl, rfl, rfl⟩⟩
  exact (decodeHcw_isReserved_iff w).trans (and_congr_left' (not_congr (and_opMask_eq_iff w 0#2).symm))

/-- Settles O7: the ten words are closed terms, so the decoder runs on each. -/
theorem writtenWordsDecode : Obligations.WrittenWordsDecode :=
  ⟨rfl, rfl, rfl, rfl, rfl, rfl, rfl, rfl, rfl, rfl⟩

end Sys2Proof

namespace Sys2Proof.Machine

/-! ### The ports: a word accepted, a byte taken, a byte held (R64, R72) -/

section Port

variable {s : State}

theorem step_of_word {c : Code} {cs : List Code} {i : Instr} (hr : s.linesNow.rst = false) (hs : s.evtStage = [])
    (hi : s.input = c :: cs) (hd : decode c = .ok i) : step s = exec i s.dropLines.dropInput := by
  simp [step, hr, hs, hi, hd]

theorem step_of_ready (hr : s.linesNow.rst = false) (he : s.linesNow.evtReady = true) (hs : s.evtStage ≠ []) :
    step s = .next s.dropLines.takeByte := by
  obtain ⟨b, bs, hb⟩ := List.exists_cons_of_ne_nil hs
  simp [step, hr, he, hb]

theorem step_of_stalled (hr : s.linesNow.rst = false) (he : s.linesNow.evtReady = false) (hs : s.evtStage ≠ []) :
    step s = .next s.dropLines := by
  obtain ⟨b, bs, hb⟩ := List.exists_cons_of_ne_nil hs
  simp [step, hr, he, hb]

theorem stepN_succ_of_step {t : State} (h : step s = .next t) (k : Nat) : stepN (k + 1) s = stepN k t := by
  rw [stepN, h]

/-- While the consumer is ready, `k` steps deliver the next `k` bytes, in order. -/
theorem stepN_of_ready {k : Nat} (hk : k ≤ s.evtStage.length)
    (hl : ∀ j < k, s.linesAt j = { rst := false, evtReady := true }) :
    stepN k s = .next { s with
      lines := s.lines.drop k, evtStage := s.evtStage.drop k, evtTaken := s.evtTaken ++ s.evtStage.take k } := by
  induction k generalizing s with
  | zero => simp [stepN]
  | succ k ih =>
    obtain ⟨b, bs, hs⟩ := List.exists_cons_of_length_pos (Nat.zero_lt_of_lt hk)
    have hnow : s.linesNow = { rst := false, evtReady := true } := s.linesNow_eq_linesAt.trans (hl 0 k.succ_pos)
    have hstep : step s = .next s.dropLines.takeByte := step_of_ready (by rw [hnow]) (by rw [hnow]) (by simp [hs])
    have hrest : stepN k s.dropLines.takeByte = _ :=
      ih (by simpa using Nat.le_sub_one_of_lt hk) fun j hj => (s.dropLines_linesAt j).trans (hl (j + 1) (by omega))
    rw [stepN_succ_of_step hstep, hrest]
    simp [hs, State.dropLines, State.takeByte]

end Port

/-! ### The obligations on the step and the ports -/

/-- Settles O51: all the waiting bytes are the first `|evtStage|` of them. -/
theorem readyConsumerDrainsTheStage : Obligations.ReadyConsumerDrainsTheStage := by
  intro s hl
  rw [stepN_of_ready le_rfl hl, List.drop_length, List.take_length]

/-- Settles O48: each row's meaning is `emitRecord` of its record, whose 16-bit fields are sent high byte first. -/
theorem recordRowsReachTheStage : Obligations.RecordRowsReachTheStage := by
  intro mant count scale value1 value2 len ty reason payload s
  rw [← lowByte_eq_setWidth, ← lowByte_eq_setWidth]
  exact ⟨rfl, rfl, rfl, fun h => if_pos h, fun h => if_neg (by rw [h]; decide)⟩

/-- Settles O49: the word's own equation of `step`. -/
theorem stepRunsTheDecodedInstruction : Obligations.StepRunsTheDecodedInstruction := by
  intro s c cs i hr hs hi hd
  rw [step_of_word hr hs hi hd, State.dropInput, State.dropLines_input, hi]
  rfl

/-- Settles O50: the outputs while a byte waits, and the two cases of the consumer's line. -/
theorem eventPortHandshake : Obligations.EventPortHandshake := by
  intro s b bs hr hs
  have hne : s.evtStage ≠ [] := by simp [hs]
  refine ⟨by simp [State.cmdReady, hs], by simp [State.evtOut, State.evtValid, hr, hs], fun he => ?_, fun he => ?_⟩
  · rw [step_of_ready hr he hne, State.takeByte, State.dropLines_evtStage, hs]
    rfl
  · exact step_of_stalled hr he hne

end Sys2Proof.Machine

/-! ## The byte assembler family: PUSH, END and RESET, the chunk, and a run at the ports (O12 to O16, O56) -/

namespace Sys2Proof.Machine

/-! ### The host commands, one by one (R67 to R70) -/

section HostCommand

variable {p : Params} {s t : State} {m r : Memory}

theorem exec_push_of_full (b : Byte) (h : s.params.bufCap ≤ s.buf.length) : exec (.push b) s = .next s := by
  rw [exec, execPush, State.pushByte_eq_setBuf, Memory.append_of_full b h, State.setBuf_self]

theorem readByte_append_singleton (m : List Byte) (v : Byte) {a : Nat} (ha : a ≠ m.length) :
    readByte (m ++ [v]) a = readByte m a := by
  have hget : (m ++ [v])[a]? = m[a]? := by
    rcases Nat.lt_or_gt_of_ne ha with hlt | hgt
    · exact List.getElem?_append_left hlt
    · rw [List.getElem?_eq_none (by simp; omega), List.getElem?_eq_none hgt.le]
  rw [readByte, readByte, hget]

theorem readByte_pushByte (b : Byte) (s : State) {a : Nat} (ha : a ≠ s.buf.length) :
    readByte (s.pushByte b).buf a = readByte s.buf a := by
  rw [State.pushByte_eq_setBuf, State.setBuf_buf]
  obtain happ | hkept := s.buf.append_cases s.params.bufCap b
  · rw [happ, readByte_append_singleton _ _ ha]
  · rw [hkept]

theorem exec_endChunk_of_scan {es : List Event} (h : scan s.params s.buf = .ok (r, es)) :
    exec .endChunk s = .next ((s.setBuf r).emit es) :=
  execEndChunk_of_scan h

/-- SCAN has nothing to do on a BUF of the kind it returns with (R76, R79, R81). -/
theorem scan_of_short_or_suspended (h : m.length < 6 ∨ suspended m = true) : scan p m = .ok (m, []) := by
  by_cases hl : m.length < 6
  · exact scan_short p hl
  · exact scan_suspended p (b := []) (Nat.not_lt.mp hl) List.not_mem_nil (h.resolve_left hl)

theorem exec_endChunk_of_short_or_suspended (h : s.buf.length < 6 ∨ suspended s.buf = true) :
    exec .endChunk s = .next s := by
  rw [exec_endChunk_of_scan (scan_of_short_or_suspended h), State.setBuf_self, State.emit_eq_stageBytes, wireEvents_nil,
    State.stageBytes_nil]

end HostCommand

/-- Settles O14: SCAN is total, and END is defined by its result. -/
theorem endRunsScanToCompletion : Obligations.EndRunsScanToCompletion := by
  intro s
  obtain ⟨m, es, h⟩ := scan_total s.params s.buf
  exact ⟨m, es, h, exec_endChunk_of_scan h⟩

/-- Settles O16: the first END leaves a BUF that is too short to scan or on which SCAN suspends at once. -/
theorem endIsIdempotent : Obligations.EndIsIdempotent :=
  fun _ _ h => exec_endChunk_of_short_or_suspended (endChunk_leaves_short_or_suspended h)

/-- Settles O12: the two branches of the append. -/
theorem pushAppendsOrLoses : Obligations.PushAppendsOrLoses := by
  intro b s
  refine ⟨exec_push_of_room b, exec_push_of_full b, ?_⟩
  rintro t h a ha
  cases h
  exact readByte_pushByte b s ha

/-- Settles O13: `full` compares the length 0 with BUF_CAP. -/
theorem resetClearsOnlyBuffer : Obligations.ResetClearsOnlyBuffer := by
  intro s
  refine ⟨s.clearBuf, rfl, rfl, rfl, fun hcap => ?_⟩
  rw [← Bool.not_eq_true, State.full_iff, State.clearBuf_eq_setBuf, State.setBuf_buf, State.setBuf_params, List.length_nil]
  omega

/-! ### A chunk (R66, R73) -/

section Chunk

variable {s t : State}

theorem execAll_cons_of_exec {i : Instr} (h : exec i s = .next t) (is : List Instr) :
    execAll (i :: is) s = execAll is t := by
  rw [execAll, h]

theorem execAll_singleton (i : Instr) (s : State) : execAll [i] s = exec i s := by
  rw [execAll]
  cases exec i s <;> rfl

/-- The PUSH commands of a chunk that fits append it whole. -/
theorem execAll_map_push {bs : List Byte} (h : s.buf.length + bs.length ≤ s.params.bufCap) :
    execAll (bs.map .push) s = .next (s.setBuf (s.buf ++ bs)) := by
  induction bs generalizing s with
  | nil => rw [List.append_nil, State.setBuf_self]; rfl
  | cons b bs ih =>
    rw [List.length_cons] at h
    have hpush : exec (.push b) s = .next (s.setBuf (s.buf ++ [b])) := exec_push_of_room b (by omega)
    have hrest : execAll (bs.map .push) (s.setBuf (s.buf ++ [b])) = .next (s.setBuf (s.buf ++ [b] ++ bs)) :=
      ih (by simp; omega)
    rw [List.map_cons, execAll_cons_of_exec hpush, hrest, List.append_assoc, List.singleton_append]

end Chunk

/-- Settles O15: the PUSH commands of the chunk, then its END. -/
theorem chunkIsAppendThenScan : Obligations.ChunkIsAppendThenScan := by
  intro bs s h
  rw [chunk, execAll_append (execAll_map_push h), execAll_singleton]
  rfl

/-! ### A run at the ports against the commands executed one after another (R43, R64, R72)

A command reads the parameters and BUF only, so its effect is a new BUF and the bytes it adds to the output stage, whatever
else the state holds. What a run comes to is then the same for a state and for the one a step later. -/

/-- `f` reads the parameters and BUF only: from `p` and `m` it completes with `r` in BUF and `bs` added to the output stage. -/
def HasEffect (f : State → Host.Outcome State Fault Refusal) (p : Params) (m r : Memory) (bs : List EvtByte) : Prop :=
  ∀ s : State, s.params = p → s.buf = m → f s = .next ((s.setBuf r).stageBytes bs)

/-- The waiting commands leave `r` in BUF, and `out` is what the consumer has taken once it has all the bytes taken, in the
output stage, and still to be emitted. -/
def State.ComesTo (s : State) (r : Memory) (out : List EvtByte) : Prop :=
  ∃ bs, HasEffect (execAll s.waitingInstrs) s.params s.buf r bs ∧ out = s.evtTaken ++ s.evtStage ++ bs

section Effect

variable {p : Params} {m r r' : Memory} {bs bs' : List EvtByte}

theorem hasEffect_of_setBuf {f : State → Host.Outcome State Fault Refusal}
    (h : ∀ s : State, s.params = p → s.buf = m → f s = .next (s.setBuf r)) : HasEffect f p m r [] := by
  intro s hp hm
  rw [h s hp hm, State.stageBytes_nil]

theorem hasEffect_of_noOp {f : State → Host.Outcome State Fault Refusal} (h : ∀ s, f s = .next s) (p : Params) (m : Memory) :
    HasEffect f p m m [] :=
  hasEffect_of_setBuf fun s _ hm => by rw [h, ← hm, State.setBuf_self]

/-- Every host command completes, and its effect is its own whatever waits in the output stage (R43). -/
theorem hasEffect_exec {i : Instr} (hi : i.format = .hcw) (p : Params) (m : Memory) : ∃ r bs, HasEffect (exec i) p m r bs := by
  cases i
  case push b => exact ⟨m.append p.bufCap b, [], hasEffect_of_setBuf fun s hp hm => by subst hp hm; rfl⟩
  case endChunk =>
    obtain ⟨r, es, h⟩ := scan_total p m
    exact ⟨r, wireEvents es, fun s hp hm => exec_endChunk_of_scan (by rw [hp, hm, h])⟩
  case reset => exact ⟨[], [], hasEffect_of_setBuf fun _ _ _ => rfl⟩
  case reserved01 | reserved10 | reserved11 => exact ⟨m, [], hasEffect_of_noOp (fun _ => rfl) p m⟩
  all_goals cases hi

theorem hasEffect_execAll_cons {i : Instr} {is : List Instr} (hi : HasEffect (exec i) p m r bs)
    (his : HasEffect (execAll is) p r r' bs') : HasEffect (execAll (i :: is)) p m r' (bs ++ bs') := by
  intro s hp hm
  have hrest : execAll is ((s.setBuf r).stageBytes bs) = _ := his _ hp rfl
  rw [execAll_cons_of_exec (hi s hp hm), hrest]
  simp [State.stageBytes, State.setBuf]

theorem decodeHcw_format (w : Hcw) : (decodeHcw w).format = .hcw := by
  unfold decodeHcw
  split_ifs <;> rfl

end Effect

section Run

variable {s t : State} {r : Memory} {out : List EvtByte} {c : Code} {cs : List Code} {i : Instr}

theorem State.waitingInstrs_of_input (hi : s.input = c :: cs) (hd : decode c = .ok i) :
    s.waitingInstrs = i :: s.dropInput.waitingInstrs := by
  rw [State.waitingInstrs, State.waitingInstrs, State.dropInput_input, hi]
  exact List.filterMap_cons_some (by rw [hd]; rfl)

/-- A host that only gives commands presents an HCW next (R63). -/
theorem State.hostDriven_head (h : s.hostDriven = true) (hi : s.input = c :: cs) : ∃ w, c = .hcw w := by
  rw [State.hostDriven, hi, List.all_cons, Bool.and_eq_true, decide_eq_true_eq] at h
  cases c with
  | hcw w => exact ⟨w, rfl⟩
  | frame | short | seg7 | evrec => cases h.1

/-- A step leaves the waiting words as they are or accepts the first, and uses up one entry of the schedule. -/
theorem step_input_suffix_and_lines (h : step s = .next t) :
    t.input <:+ s.input ∧ t.lines = s.lines.tail ∧ t.linesAfter = s.linesAfter := by
  obtain rfl | rfl | rfl | ⟨i, hi⟩ | rfl := step_next_cases h
  case inr.inr.inr.inl =>
    obtain ⟨-, hin, hl, ha, -⟩ := exec_keeps_outside hi
    exact ⟨hin ▸ List.tail_suffix s.input, hl, ha⟩
  case inr.inr.inr.inr => exact ⟨List.tail_suffix s.input, rfl, rfl⟩
  all_goals exact ⟨List.suffix_refl _, rfl, rfl⟩

theorem step_keeps_hostDriven (hs : s.hostDriven = true) (h : step s = .next t) : t.hostDriven = true :=
  List.all_eq_true.mpr fun c hc => List.all_eq_true.mp hs c ((step_input_suffix_and_lines h).1.mem hc)

theorem step_linesAt (h : step s = .next t) (k : Nat) : t.linesAt k = s.linesAt (k + 1) := by
  obtain ⟨-, hl, ha⟩ := step_input_suffix_and_lines h
  rw [← s.dropLines_linesAt, State.linesAt, hl, ha]
  rfl

theorem State.comesTo_of_done (hi : s.input = []) (hs : s.evtStage = []) : s.ComesTo s.buf s.evtTaken := by
  refine ⟨[], ?_, by simp [hs]⟩
  rw [State.waitingInstrs, hi]
  exact hasEffect_of_noOp (fun _ => rfl) s.params s.buf

/-- A byte handed over moves from the output stage to the bytes taken. -/
theorem State.comesTo_of_takeByte (h : s.takeByte.ComesTo r out) : s.ComesTo r out := by
  obtain ⟨bs, he, rfl⟩ := h
  refine ⟨bs, he, ?_⟩
  cases hs : s.evtStage <;> simp [hs]

theorem State.comesTo_of_exec (hi : s.input = c :: cs) (hd : decode c = .ok i) (hf : i.format = .hcw)
    (h : exec i s.dropLines.dropInput = .next t) (ht : t.ComesTo r out) : s.ComesTo r out := by
  obtain ⟨q, bs, hexec⟩ := hasEffect_exec hf s.params s.buf
  obtain rfl : _ = t := Host.Outcome.next.inj ((hexec s.dropLines.dropInput rfl rfl).symm.trans h)
  obtain ⟨bs', hrest, rfl⟩ := ht
  refine ⟨bs ++ bs', ?_, by simp⟩
  rw [State.waitingInstrs_of_input hi hd]
  exact hasEffect_execAll_cons hexec hrest

/-- Without a reset, a state comes to what the state a step later comes to: a step hands over a byte, accepts a command, or
only lets time pass. -/
theorem State.comesTo_of_step (hh : s.hostDriven = true) (hr : s.linesNow.rst = false) (h : step s = .next t)
    (ht : t.ComesTo r out) : s.ComesTo r out := by
  obtain ⟨hr', -⟩ | ⟨-, -, -, hs⟩ | ⟨-, -, hs⟩ | ⟨-, -, c, cs, hi, hword⟩ := step_cases s
  · rw [hr] at hr'; cases hr'
  · rw [hs] at h; cases h
    exact State.comesTo_of_takeByte (s := s.dropLines) ht
  · rw [hs] at h; cases h
    exact ht
  · obtain ⟨w, rfl⟩ := State.hostDriven_head hh hi
    obtain ⟨i, hd, hs⟩ | ⟨e, hd, -⟩ := hword
    · rw [hs] at h
      refine State.comesTo_of_exec hi hd ?_ h ht
      cases hd
      exact decodeHcw_format w
    · cases hd

theorem State.comesTo_of_stepN {n : Nat} (hh : s.hostDriven = true) (hr : ∀ k, (s.linesAt k).rst = false)
    (h : stepN n s = .next t) (ht : t.ComesTo r out) : s.ComesTo r out := by
  induction n generalizing s with
  | zero => cases h; exact ht
  | succ n ih =>
    cases hstep : step s with
    | next u =>
      rw [stepN_succ_of_step hstep] at h
      have hu : u.ComesTo r out := ih (step_keeps_hostDriven hh hstep) (fun k => step_linesAt hstep k ▸ hr (k + 1)) h
      exact State.comesTo_of_step hh (s.linesNow_eq_linesAt ▸ hr 0) hstep hu
    | fault f => rw [stepN, hstep] at h; cases h
    | refused f => rw [stepN, hstep] at h; cases h

theorem State.linesAt_rst_of_forall (h : ∀ l ∈ s.lines, l.rst = false) (ha : s.linesAfter.rst = false) (k : Nat) :
    (s.linesAt k).rst = false := by
  rw [State.linesAt, List.getD_eq_getElem?_getD]
  cases hk : s.lines[k]? with
  | none => exact ha
  | some l => exact h l (List.mem_of_getElem? hk)

end Run

/-- Settles O56: the last state comes to its own BUF and bytes taken, so the first state comes to them too. -/
theorem runIsIndependentOfTiming : Obligations.RunIsIndependentOfTiming := by
  intro n s t hh hl ha hrun hin hstage
  obtain ⟨bs, heffect, htaken⟩ : s.ComesTo t.buf t.evtTaken :=
    State.comesTo_of_stepN hh (State.linesAt_rst_of_forall hl ha) hrun (State.comesTo_of_done hin hstage)
  exact ⟨_, heffect s rfl rfl, rfl, by rw [htaken, List.append_assoc]; rfl⟩

end Sys2Proof.Machine

/-! ## The frame scanner family: the iteration of SCAN, what END leaves, and chunks in any split (O17 to O23, O26, O27, O30) -/

namespace Sys2Proof.Machine

open Config

/-! ### What step 3 and the discard points emit (R78, R117) -/

section Emission

variable (p : Params) {b : List Byte}

theorem isOrphan_iff : isOrphan b = true ↔ b ≠ [] ∧ SYNC ∉ b := by simp [isOrphan]

theorem diagEvents_length (reason : DiagReason) (count : Nat) :
    (diagEvents p reason count).length = if p.diagEnable then 1 else 0 := by
  rw [diagEvents]
  split <;> rfl

/-- Step 3 emits at most the short-form event and the diagnostic (R78, R117). -/
theorem orphanEvents_length_le (b : List Byte) : (orphanEvents p b).length ≤ 1 + if p.diagEnable then 1 else 0 := by
  by_cases hb : b = []
  · simp [hb]
  · obtain ⟨eb, hc, hle⟩ := classifyOrphan_ok b
    rw [orphanEvents_of_ok hb hc, List.length_append, diagEvents_length]
    exact Nat.add_le_add_right hle _

theorem heightEvents_filter_carriesBytes (r : HeightReading) : (heightEvents r).filter Event.carriesBytes = [] := by
  cases r <;> rfl

theorem diagEvents_filter_carriesBytes (reason : DiagReason) (count : Nat) :
    (diagEvents p reason count).filter Event.carriesBytes = [] := by
  rw [diagEvents]
  split <;> rfl

/-- What comes of an orphan span is a height or a diagnostic, and neither carries bytes (R87, R93). -/
theorem orphanEvents_filter_carriesBytes (hb : b ≠ []) : (orphanEvents p b).filter Event.carriesBytes = [] := by
  obtain ⟨d0, d1, d2, rest, -, -, hc⟩ | ⟨-, hc⟩ := classifyOrphan_cases b
  · rw [orphanEvents_of_ok hb hc, List.filter_append, shortBranch, heightEvents_filter_carriesBytes,
      diagEvents_filter_carriesBytes, List.nil_append]
  · rw [orphanEvents_of_ok hb hc, List.nil_append, diagEvents_filter_carriesBytes]

end Emission

/-! ### One iteration, and END on one BUF (R76 to R85) -/

/-- An iteration removes a frame or returns, and it emits what step 3 emits and at most one event more (R84). -/
theorem scanIteration_bounds (p : Params) (m : Memory) :
    ∃ r, scanIteration p m = .ok r ∧ (r.again = true → r.buf.length + 3 ≤ m.length)
      ∧ r.events.length ≤ 2 + if p.diagEnable then 1 else 0 := by
  obtain h | ⟨h, hs⟩ | ⟨b, m, rfl, h, hb, hm⟩ | ⟨b, f, rest, rfl, h, hb, hf⟩ := scan_shape m
  · exact ⟨_, scanIteration_short p h, by simp, by simp⟩
  · exact ⟨_, scanIteration_noSync p h hs, by simp, by simp [diagEvents_length]⟩
  · have := orphanEvents_length_le p b
    exact ⟨_, scanIteration_suspended p h hb hm, by simp, by dsimp only; omega⟩
  · obtain ⟨es, hc, hes⟩ := classifyFrame_ok p hf
    have hevents := orphanEvents_length_le p b
    have hframe := (isFrame_length hf).1
    refine ⟨_, scanIteration_frame p rest h hb hf hc, fun _ => ?_, ?_⟩ <;> simp only [List.length_append] <;> omega

/-- Settles O23: the bounds of one iteration, and SCAN is total with the rule's own bound as fuel. -/
theorem scanTerminatesWithinBound : Obligations.ScanTerminatesWithinBound := by
  intro p m
  obtain ⟨r, hr, hlen, hevents⟩ := scanIteration_bounds p m
  obtain ⟨q, es, hscan⟩ := scan_total p m
  refine ⟨⟨r, hr, hlen, hevents.trans ?_⟩, (q, es), hscan⟩
  split <;> rfl

/-- Settles O17: step 1 returns. -/
theorem shortBufferIsNotScanned : Obligations.ShortBufferIsNotScanned :=
  ⟨fun p _ h => scanIteration_short p h, fun _ h => exec_endChunk_of_short_or_suspended (.inl h)⟩

/-- Settles O18: the search of step 2 finds no marker. -/
theorem bufferWithoutSyncIsCleared : Obligations.BufferWithoutSyncIsCleared := by
  intro s hl hs
  have hsync : SYNC ∉ s.buf := by simpa [SYNC] using hs
  rw [exec_endChunk_of_scan (scan_noSync s.params hl hsync), diagEvents, State.emit_eq_stageBytes]
  split
  · rw [wireEvents_singleton]; rfl
  · rfl

/-- Settles O19: a marker, a length field and too few bytes for them is a BUF on which SCAN suspends. -/
theorem incompleteFrameSuspends : Obligations.IncompleteFrameSuspends := by
  intro s len rest hb hl
  have hsusp : suspended s.buf = true := by
    rw [hb] at hl ⊢
    simpa [suspended, SYNC, totalLen] using hl
  exact exec_endChunk_of_short_or_suspended (.inr hsusp)

/-- Settles O20: the extraction of a frame with no span before it. -/
theorem frameIsExtractedThenScanGoesOn : Obligations.FrameIsExtractedThenScanGoesOn := by
  intro p m rest hf hl
  obtain ⟨es, hc, -⟩ := classifyFrame_ok p hf
  obtain ⟨r, er, hr⟩ := scan_total p rest
  exact ⟨es, er, r, hc, hr, scan_frame p (b := []) hl List.not_mem_nil hf hc hr⟩

/-- Settles O21: SCAN suspends behind the span, with the events of step 3 emitted. -/
theorem orphanDropIsKeptOnSuspend : Obligations.OrphanDropIsKeptOnSuspend := by
  intro s b m hbuf ho hm hl
  obtain ⟨hne, hsync⟩ := isOrphan_iff.mp ho
  obtain ⟨es, hc, -⟩ := classifyOrphan_ok b
  have hscan : scan s.params s.buf = .ok (m, orphanEvents s.params b) := by
    rw [hbuf] at hl ⊢
    exact scan_suspended s.params hl hsync hm
  rw [orphanEvents_of_ok hne hc] at hscan
  exact ⟨es, hc, exec_endChunk_of_scan hscan⟩

/-- Settles O22: the extraction of a frame with the span's events before its own. -/
theorem orphanThenFrameInOrder : Obligations.OrphanThenFrameInOrder := by
  intro p b m rest ho hf hl
  obtain ⟨hne, hsync⟩ := isOrphan_iff.mp ho
  obtain ⟨eb, hb, -⟩ := classifyOrphan_ok b
  obtain ⟨em, hm, -⟩ := classifyFrame_ok p hf
  obtain ⟨r, er, hr⟩ := scan_total p rest
  have hscan := scan_frame p hl hsync hf hm hr
  rw [orphanEvents_of_ok hne hb] at hscan
  exact ⟨eb, em, er, r, hb, hm, hr, hscan⟩

/-! ### What an orphan span reaches (R87) -/

/-- Behind an orphan span SCAN does the same whatever the span: it leaves the same BUF, and emits the same events behind those of
the span. -/
theorem scan_behind_orphan (p : Params) (m : List Byte) :
    ∃ r es, ∀ b : List Byte, SYNC ∉ b → 6 ≤ (b ++ SYNC :: m).length →
      scan p (b ++ SYNC :: m) = .ok (r, orphanEvents p b ++ es) := by
  obtain hs | ⟨f, rest, hf, hm⟩ := suspended_or_frame m
  · refine ⟨SYNC :: m, [], fun b hb hl => ?_⟩
    rw [List.append_nil]
    exact scan_suspended p hl hb hs
  · obtain ⟨ef, hc, -⟩ := classifyFrame_ok p hf
    obtain ⟨r, er, hr⟩ := scan_total p rest
    refine ⟨r, ef ++ er, fun b hb hl => ?_⟩
    rw [hm, ← List.append_assoc] at hl ⊢
    rw [← List.append_assoc]
    exact scan_frame p hl hb hf hc hr

/-- Settles O30: the two runs differ in the events of the span, and those carry no bytes. -/
theorem orphanBytesReachNoPayload : Obligations.OrphanBytesReachNoPayload := by
  intro p b c m hb hc hlb hlc
  obtain ⟨hbne, hbsync⟩ := isOrphan_iff.mp hb
  obtain ⟨hcne, hcsync⟩ := isOrphan_iff.mp hc
  obtain ⟨r, es, hscan⟩ := scan_behind_orphan p m
  refine ⟨r, _, _, hscan b hbsync hlb, hscan c hcsync hlc, ?_⟩
  rw [List.filter_append, List.filter_append, orphanEvents_filter_carriesBytes p hbne, orphanEvents_filter_carriesBytes p hcne]

/-! ### Chunks in any split (R73, R86) -/

section Split

variable {p : Params} {s : State} {m r : Memory} {es : List Event}

/-- A chunk that fits, once the result of its scan is known, and then the chunks after it (R73). -/
theorem execAll_chunks_cons {bs : List Byte} (h : s.buf.length + bs.length ≤ s.params.bufCap)
    (hs : scan s.params (s.buf ++ bs) = .ok (r, es)) (bss : List (List Byte)) :
    execAll (chunks (bs :: bss)) s = execAll (chunks bss) ((s.setBuf r).emit es) := by
  have hchunk : execAll (chunk bs) s = .next ((s.setBuf r).emit es) :=
    (chunkIsAppendThenScan bs s h).trans (exec_endChunk_of_scan (s := s.setBuf (s.buf ++ bs)) hs)
  exact execAll_append hchunk

/-- SCAN emits nothing on a BUF too short to scan, nor, diagnostics off, on one without a marker (R76, R77). -/
theorem scan_silent (h : m.length < 6 ∨ p.diagEnable = false ∧ SYNC ∉ m) : ∃ r, scan p m = .ok (r, []) := by
  by_cases hl : m.length < 6
  · exact ⟨m, scan_short p hl⟩
  · obtain ⟨hd, hs⟩ := h.resolve_left hl
    refine ⟨[], ?_⟩
    rw [scan_noSync p (Nat.not_lt.mp hl) hs, diagEvents, hd]
    rfl

/-- Chunks that stay too short to scan, or bring no marker with diagnostics off, emit nothing and leave an end of what was fed. -/
theorem execAll_chunks_silent {bss : List (List Byte)} (hm : s.buf ++ bss.flatten = m) (hcap : m.length ≤ s.params.bufCap)
    (h : m.length < 6 ∨ s.params.diagEnable = false ∧ SYNC ∉ m) :
    ∃ r, r <:+ m ∧ execAll (chunks bss) s = .next (s.setBuf r) := by
  induction bss generalizing s m with
  | nil => exact ⟨s.buf, by simp [← hm], rfl⟩
  | cons bs bss ih =>
    rw [List.flatten_cons, ← List.append_assoc] at hm
    have hprefix : s.buf ++ bs <+: m := ⟨_, hm⟩
    have hfits : s.buf.length + bs.length ≤ s.params.bufCap := List.length_append ▸ hprefix.length_le.trans hcap
    obtain ⟨q, hq⟩ : ∃ q, scan s.params (s.buf ++ bs) = .ok (q, []) :=
      scan_silent (h.imp hprefix.length_le.trans_lt (And.imp_right fun hs hmem => hs (hprefix.subset hmem)))
    have hsuffix : q ++ bss.flatten <:+ m := by
      obtain ⟨dropped, hdropped⟩ := scan_suffix hq
      exact ⟨dropped, by rw [← List.append_assoc, hdropped, hm]⟩
    obtain ⟨r, hr, hexec⟩ := ih (s := s.setBuf q) rfl (hsuffix.length_le.trans hcap)
      (h.imp hsuffix.length_le.trans_lt (And.imp_right fun hs hmem => hs (hsuffix.subset hmem)))
    refine ⟨r, hr.trans hsuffix, ?_⟩
    rw [execAll_chunks_cons hfits hq, State.emit_eq_stageBytes, wireEvents_nil, State.stageBytes_nil, hexec]
    rfl

theorem execAll_chunks_empty {bss : List (List Byte)} (hbuf : s.buf = []) (hbss : bss.flatten = []) :
    execAll (chunks bss) s = .next s := by
  obtain ⟨r, hr, hexec⟩ := execAll_chunks_silent (m := []) (by rw [hbuf, hbss]; rfl) (Nat.zero_le _) (.inl (by simp))
  rw [List.suffix_nil.mp hr, ← hbuf, State.setBuf_self] at hexec
  exact hexec

/-- The proper beginnings of a frame are too short to scan, or SCAN suspends on them (R76, R81). -/
theorem short_or_suspended_of_frame_append {a c : List Byte} (hf : isFrame (a ++ c) = true) (hc : c ≠ []) :
    a.length < 6 ∨ suspended a = true := by
  match a, hf with
  | [], _ => exact .inl (by simp)
  | [_], _ => exact .inl (by simp)
  | sync :: len :: r, hf =>
    have hpos := List.length_pos_iff.mpr hc
    simp only [List.cons_append, isFrame, Bool.and_eq_true, decide_eq_true_eq, List.length_cons, List.length_append] at hf
    obtain ⟨hsync, htotal⟩ := hf
    right
    simp only [suspended, Bool.and_eq_true, decide_eq_true_eq, List.length_cons]
    exact ⟨hsync, by omega⟩

/-- A frame that is all of BUF is extracted and leaves BUF empty (R82). -/
theorem scan_whole_frame (hf : isFrame m = true) (hl : 6 ≤ m.length) (hc : classifyFrame p m = .ok es) :
    scan p m = .ok ([], es) := by
  simpa using scan_frame p (b := []) (rest := []) (by simpa using hl) List.not_mem_nil hf hc (scan_short p (by simp))

/-- Chunks that complete the frame BUF begins: SCAN waits until its last byte is there, and the chunks after that are empty. -/
theorem execAll_chunks_frame {bss : List (List Byte)} (hm : s.buf ++ bss.flatten = m) (hne : bss.flatten ≠ [])
    (hcap : m.length ≤ s.params.bufCap) (hf : isFrame m = true) (hl : 6 ≤ m.length) (hc : classifyFrame s.params m = .ok es) :
    execAll (chunks bss) s = .next ((s.setBuf []).emit es) := by
  induction bss generalizing s with
  | nil => exact absurd rfl hne
  | cons bs bss ih =>
    rw [List.flatten_cons, ← List.append_assoc] at hm
    have hprefix : s.buf ++ bs <+: m := ⟨_, hm⟩
    have hfits : s.buf.length + bs.length ≤ s.params.bufCap := List.length_append ▸ hprefix.length_le.trans hcap
    by_cases hrest : bss.flatten = []
    · rw [hrest, List.append_nil] at hm
      have hscan : scan s.params (s.buf ++ bs) = .ok ([], es) := hm ▸ scan_whole_frame hf hl hc
      rw [execAll_chunks_cons hfits hscan, execAll_chunks_empty rfl hrest]
    · have hwait : scan s.params (s.buf ++ bs) = .ok (s.buf ++ bs, []) :=
        scan_of_short_or_suspended (short_or_suspended_of_frame_append (hm ▸ hf) hrest)
      rw [execAll_chunks_cons hfits hwait, State.emit_eq_stageBytes, wireEvents_nil, State.stageBytes_nil]
      exact ih (s := s.setBuf (s.buf ++ bs)) hm hrest hcap hc

end Split

/-- Settles O26: the frame fits a legal BUF_CAP, and from an empty BUF its chunks complete it. -/
theorem oneFrameUnderAnySplit : Obligations.OneFrameUnderAnySplit := by
  rintro s m bss hp hbuf hf hl rfl
  obtain ⟨es, hc, -⟩ := classifyFrame_ok s.params hf
  have hframe := (isFrame_length hf).2
  have hcap := (Params.wf_iff _).mp hp
  have hne : bss.flatten ≠ [] := List.length_pos_iff.mp (by omega)
  have hexec := execAll_chunks_frame (by rw [hbuf]; rfl) hne (by omega) hf hl hc
  rw [← hbuf, State.setBuf_self] at hexec
  exact ⟨es, hc, hexec⟩

/-- Settles O27: what was fed stays too short to scan, or holds no marker. -/
theorem noEventUnderAnySplit : Obligations.NoEventUnderAnySplit := by
  rintro s m bss hp hd hbuf hm rfl
  have hcap := (Params.wf_iff _).mp hp
  have hfits : bss.flatten.length ≤ s.params.bufCap := by
    obtain ⟨-, hl⟩ | ⟨-, hl⟩ := hm <;> omega
  have hsilent : bss.flatten.length < 6 ∨ s.params.diagEnable = false ∧ SYNC ∉ bss.flatten :=
    hm.imp (fun h => Nat.lt_succ_of_le h.2) (fun h => ⟨hd, by simpa using h.1⟩)
  obtain ⟨r, -, hexec⟩ := execAll_chunks_silent (by rw [hbuf]; rfl) hfits hsilent
  exact ⟨r, hexec⟩

end Sys2Proof.Machine

/-! ## The message classifier family: the classifier against the bytes of a frame or span, and against the row (O32 to O38) -/

namespace Sys2Proof.Machine

open Config

/-! ### What a reading emits, and what the rows emit (R88 to R90, R93, R115) -/

section Rows

variable (s : State)

theorem heightEvents_of_valid {r : HeightReading} {h : Height} (hr : r = .valid h) : heightEvents r = [.height h] := by
  rw [hr, heightEvents]

theorem heightEvents_of_invalid {r : HeightReading} (hr : r = .invalid) : heightEvents r = [] := by
  rw [hr, heightEvents]

theorem State.emit_singleton (e : Event) : s.emit [e] = s.stageBytes (wireBytes e.record) := by
  rw [State.emit_eq_stageBytes, wireEvents_singleton]

theorem State.emit_heightEvents_of_valid {r : HeightReading} {h : Height} (hr : r = .valid h) :
    s.emit (heightEvents r) = s.stageBytes (wireBytes (Event.height h).record) := by
  rw [heightEvents_of_valid hr, State.emit_singleton]

theorem State.emit_heightEvents_of_invalid {r : HeightReading} (hr : r = .invalid) : s.emit (heightEvents r) = s := by
  rw [heightEvents_of_invalid hr, State.emit_eq_stageBytes, wireEvents_nil, State.stageBytes_nil]

theorem exec_height (p0 p1 p2 p3 m7 m8 trailer : Byte) :
    exec (.height p0 p1 p2 p3 m7 m8 trailer) s = .next (s.emit (heightBranch s.params p0 p1 p2 p3)) := rfl

theorem exec_status (value1 value2 m5 trailer : Byte) :
    exec (.status value1 value2 m5 trailer) s = .next (s.emit (statusBranch value1 value2)) := rfl

theorem exec_unknown (len ty : Byte) (rest : List Byte) :
    exec (.unknown len ty rest) s = .next (s.emit (unknownBranch len ty rest.dropLast)) := rfl

theorem exec_shortHeight (d0 d1 d2 : Byte) (rest : List Byte) :
    exec (.shortHeight d0 d1 d2 rest) s = .next (s.emit (shortBranch d0 d1 d2)) := rfl

end Rows

/-! ### The classifier on a frame known by its bytes (R88 to R92) -/

section Frame

variable (p : Params) {m : List Byte}

/-- The height test takes a HEIGHT frame only, and its branch reads `m[3..7)` (R88). -/
theorem classifyFrame_of_height_bytes {p0 p1 p2 p3 : Byte} (hf : isFrame m = true) (h1 : m[1]? = some H_LEN)
    (h2 : m[2]? = some H_TYPE) (h3 : m[3]? = some p0) (h4 : m[4]? = some p1) (h5 : m[5]? = some p2) (h6 : m[6]? = some p3) :
    classifyFrame p m = .ok (heightBranch p p0 p1 p2 p3) := by
  obtain ⟨_, _, _, _, m7, m8, trailer, rfl⟩ | ⟨_, _, _, _, rfl⟩ | ⟨len, ty, rest, rfl, -, hH, -⟩ := isFrame_cases hf
  · cases h3; cases h4; cases h5; cases h6
    exact classifyFrame_height ..
  · exact absurd (Option.some.inj h1) (by decide)
  · exact absurd ⟨Option.some.inj h1, Option.some.inj h2⟩ hH

/-- The status test takes a STATUS frame only, and its branch reads `m[3]` and `m[4]` (R89). -/
theorem classifyFrame_of_status_bytes {v1 v2 : Byte} (hf : isFrame m = true) (h1 : m[1]? = some S_LEN)
    (h2 : m[2]? = some S_TYPE) (h3 : m[3]? = some v1) (h4 : m[4]? = some v2) :
    classifyFrame p m = .ok (statusBranch v1 v2) := by
  obtain ⟨_, _, _, _, _, _, _, rfl⟩ | ⟨_, _, m5, trailer, rfl⟩ | ⟨len, ty, rest, rfl, -, -, hS⟩ := isFrame_cases hf
  · exact absurd (Option.some.inj h1) (by decide)
  · cases h3; cases h4
    exact classifyFrame_status ..
  · exact absurd ⟨Option.some.inj h1, Option.some.inj h2⟩ hS

/-- The slice `m[3 .. max(3, |m|-1))` is what follows the type byte, without its last byte (R90). -/
theorem middleSlice_eq_dropLast {sync len ty : Byte} {rest : List Byte} (hm : m = sync :: len :: ty :: rest) :
    (m.take (max 3 (m.length - 1))).drop 3 = rest.dropLast := by
  have hcount : max 3 (m.length - 1) - 3 = rest.length - 1 := by
    rw [hm]
    simp only [List.length_cons]
    omega
  rw [List.drop_take, hcount, hm, List.dropLast_eq_take]
  rfl

/-- No branch of the classifier reads the trailer (R92). -/
theorem classifyFrame_trailer {len ty : Byte} {body : List Byte} (a b : Byte) (h : body.length + 1 = len.toNat) :
    classifyFrame p (SYNC :: len :: ty :: body ++ [a]) = classifyFrame p (SYNC :: len :: ty :: body ++ [b]) := by
  by_cases hH : len = H_LEN ∧ ty = H_TYPE
  · obtain ⟨rfl, rfl⟩ := hH
    have hbody : body.length = 6 := by simpa using h
    match body, hbody with
    | [_, _, _, _, _, _], _ => rfl
  by_cases hS : len = S_LEN ∧ ty = S_TYPE
  · obtain ⟨rfl, rfl⟩ := hS
    have hbody : body.length = 3 := by simpa using h
    match body, hbody with
    | [_, _, _], _ => rfl
  · simp only [List.cons_append, classifyFrame_unknown p _ hH hS, List.dropLast_concat]

/-- SCAN does the same behind two frames that the classifier treats alike (R82, R83). -/
theorem scan_congr_frame {f g : List Byte} (rest : List Byte) (hf : isFrame f = true) (hg : isFrame g = true)
    (hlf : 6 ≤ (f ++ rest).length) (hlg : 6 ≤ (g ++ rest).length) (h : classifyFrame p f = classifyFrame p g) :
    scan p (f ++ rest) = scan p (g ++ rest) := by
  obtain ⟨es, hc, -⟩ := classifyFrame_ok p hf
  obtain ⟨r, er, hr⟩ := scan_total p rest
  exact (scan_frame p (b := []) hlf List.not_mem_nil hf hc hr).trans
    (scan_frame p (b := []) hlg List.not_mem_nil hg (h ▸ hc) hr).symm

end Frame

/-! ### The decoder on the spans that are no short form (R93) -/

theorem decodeShort_notShortForm {b : List Byte} (hs : SYNC ∉ b)
    (hb : ∀ d0 d1 d2 rest, b = SF_B0 :: SF_B1 :: d0 :: d1 :: d2 :: rest → ¬ 3 ≤ rest.length) :
    decodeShort b = .error .notShortForm := by
  unfold decodeShort
  rw [if_neg (by simpa using hs)]
  split
  next b0 b1 d0 d1 d2 rest =>
    refine if_neg ?_
    rintro ⟨hl, rfl, rfl⟩
    exact hb d0 d1 d2 rest rfl (by rw [SF_MIN_eq] at hl; omega)
  next => rfl

/-! ### The obligations on the classifier -/

/-- Settles O32: the classifier and the row reach one branch, and what it emits is the reading's. -/
theorem heightFrameEmitsVariantA : Obligations.HeightFrameEmitsVariantA := by
  refine ⟨fun p m p0 p1 p2 p3 hf _ h1 h2 h3 h4 h5 h6 => ?_, fun p0 p1 p2 p3 m7 m8 trailer s => ?_⟩
  · rw [classifyFrame_of_height_bytes p hf h1 h2 h3 h4 h5 h6, heightBranch]
    exact ⟨fun _ hr => congrArg _ (heightEvents_of_valid hr), fun hr => congrArg _ (heightEvents_of_invalid hr)⟩
  · rw [exec_height, heightBranch]
    exact ⟨fun _ hr => congrArg _ (s.emit_heightEvents_of_valid hr), fun hr => congrArg _ (s.emit_heightEvents_of_invalid hr)⟩

/-- Settles O33: the classifier and the row reach one branch, whose record is three bytes long. -/
theorem statusFrameEmitsTwoBytes : Obligations.StatusFrameEmitsTwoBytes := by
  refine ⟨fun p m value1 value2 hf _ h1 h2 h3 h4 => classifyFrame_of_status_bytes p hf h1 h2 h3 h4,
    fun value1 value2 m5 trailer s => ?_⟩
  rw [exec_status, statusBranch, State.emit_singleton]
  rfl

/-- Settles O34: the slice is what follows the type byte without the trailer, and both the classifier and the row emit that. -/
theorem unknownFrameEmitsMiddleSlice : Obligations.UnknownFrameEmitsMiddleSlice := by
  intro len ty rest m hm
  rw [middleSlice_eq_dropLast hm]
  subst hm
  refine ⟨fun p hf hH hS => ⟨classifyFrame_unknown p rest hH hS, ?_⟩, fun s => ?_⟩
  · obtain ⟨_, _, _, hshape, hlen⟩ := isFrame_shape hf
    cases hshape
    rw [List.length_dropLast, hlen]
  · rw [exec_unknown, unknownBranch, State.emit_singleton]
    rfl

/-- Settles O35: the classifier's two cases, and the row, which reaches the branch of the first. -/
theorem shortFormEmitsVariantB : Obligations.ShortFormEmitsVariantB := by
  refine ⟨fun d0 d1 d2 rest hlen => ?_, fun b hb => ?_, fun d0 d1 d2 rest s => ?_⟩
  · have hc : classifyOrphan (0x07 :: 0x12 :: d0 :: d1 :: d2 :: rest) = _ := classifyOrphan_short d0 d1 d2 hlen
    rw [hc, shortBranch]
    exact ⟨fun _ hr => congrArg _ (heightEvents_of_valid hr), fun hr => congrArg _ (heightEvents_of_invalid hr)⟩
  · obtain ⟨d0, d1, d2, rest, rfl, hlen, -⟩ | ⟨-, hc⟩ := classifyOrphan_cases b
    · obtain hl | h0 | h1 := hb
      · simp only [List.length_cons] at hl
        omega
      · exact absurd rfl h0
      · exact absurd rfl h1
    · exact hc
  · rw [exec_shortHeight, shortBranch]
    exact ⟨fun _ hr => congrArg _ (s.emit_heightEvents_of_valid hr), fun hr => congrArg _ (s.emit_heightEvents_of_invalid hr)⟩

/-- Settles O36, by the class of the frame: the row it decodes to and the classifier reach the same branch. -/
theorem classifierRunsTheFrameRow : Obligations.ClassifierRunsTheFrameRow := by
  intro m s hf
  obtain ⟨p0, p1, p2, p3, m7, m8, trailer, rfl⟩ | ⟨v1, v2, m5, trailer, rfl⟩ | ⟨len, ty, rest, rfl, hr, hH, hS⟩ :=
    isFrame_cases hf
  · exact ⟨_, _, decodeFrame_height .., classifyFrame_height .., exec_height ..⟩
  · exact ⟨_, _, decodeFrame_status .., classifyFrame_status .., exec_status ..⟩
  · have hwf := (Instr.wf_unknown_iff len ty rest).mpr ⟨hr, hH, hS⟩
    exact ⟨_, _, decodeFrame_unknown hwf, classifyFrame_unknown s.params rest hH hS, exec_unknown ..⟩

/-- Settles O37: a short form without SYNC decodes to the SHORT row, and every other orphan span to no row. -/
theorem classifierRunsTheShortRow : Obligations.ClassifierRunsTheShortRow := by
  intro b s ho
  obtain ⟨-, hsync⟩ := isOrphan_iff.mp ho
  obtain ⟨d0, d1, d2, rest, rfl, hlen, hc⟩ | ⟨hb, hc⟩ := classifyOrphan_cases b
  · have hwf := (Instr.wf_shortHeight_iff d0 d1 d2 rest).mpr ⟨hlen, mt (sync_mem_shortForm_iff _).mpr hsync⟩
    exact ⟨_, hc, .inl ⟨_, decodeShort_shortHeight hwf, exec_shortHeight ..⟩⟩
  · exact ⟨[], hc, .inr ⟨decodeShort_notShortForm hsync hb, rfl⟩⟩

/-- Settles O38: the classifier treats the two frames alike, and SCAN hands it each whole. -/
theorem unexaminedBytesDoNotMatter : Obligations.UnexaminedBytesDoNotMatter := by
  refine fun p rest => ⟨fun p0 p1 p2 p3 a7 a8 a9 b7 b8 b9 => ?_, fun v1 v2 a5 a6 b5 b6 => ?_,
    fun len ty body a b hbody hlen => ?_⟩
  · exact scan_congr_frame p rest rfl rfl (by simp) (by simp) rfl
  · exact scan_congr_frame p rest rfl rfl (by simp) (by simp) rfl
  · have hframe (v : Byte) : isFrame (SYNC :: len :: ty :: body ++ [v]) = true := isFrame_of_shape (by simpa using hbody)
    exact scan_congr_frame p rest (hframe a) (hframe b) hlen (by simpa using hlen) (classifyFrame_trailer p a b hbody)

end Sys2Proof.Machine

/-! ## The seven-segment family: DECODE7 on every byte, and the SEG7 rows against it (O39 to O42) -/

namespace Sys2Proof.Machine

open Config

/-! ### The SEG7 rows (R95 to R98) -/

section Rows

variable (s : State)

theorem exec_segBlank : exec .segBlank s = .next (s.outDigit ⟨none, false⟩) := rfl

/-- The ten digit rows differ in their digit only (R97). -/
theorem exec_segRow (d : Fin 10) (dp : Bool) : exec (segRow d dp) s = .next (s.outDigit ⟨some d, dp⟩) := by
  fin_cases d <;> rfl

theorem exec_segInvalid (dp : Bool) (seg : SegCode) : exec (.segInvalid dp seg) s = .next (s.outDigit ⟨none, dp⟩) := rfl

end Rows

/-! ### DECODE7 by the point and the code of the byte (R95 to R98) -/

/-- The blank byte is no exception to the table: its code is not listed and its point bit is clear (R95, R99). -/
theorem decode7_eq (v : Byte) : decode7 v = ⟨SEGTAB.lookup (segCode v), segPoint v⟩ := by
  by_cases hv : v = BLANK
  · subst hv
    decide
  · simp [decode7, segDigit, dpFlag, hv]

theorem decode7_segByte (dp : Bool) (seg : SegCode) : decode7 (segByte dp seg) = ⟨SEGTAB.lookup seg, dp⟩ := by
  simp [decode7_eq]

theorem decode7_segByte_segcode (d : Fin 10) (dp : Bool) : decode7 (segByte dp (SEGCODE d)) = ⟨some d, dp⟩ := by
  rw [decode7_segByte, (lookup_segtab_eq_some_iff _ d).mpr rfl]

/-- Masking the point away leaves the code, widened to a byte. -/
theorem and_pointMask_eq_segCode (v : Byte) : v &&& 0x7F = (segCode v).setWidth 8 := by
  refine BitVec.eq_of_toNat_eq ?_
  have hmask : v.toNat &&& (0x7F : Byte).toNat = v.toNat % 128 := Nat.and_two_pow_sub_one_eq_mod v.toNat 7
  simp only [segCode, DP_BIT, BitVec.toNat_and, BitVec.toNat_setWidth, BitVec.extractLsb'_toNat, Nat.shiftRight_zero, hmask]
  omega

/-- The ten masked bytes of the table are the only ones with a digit (R97, R98). -/
theorem decode7_digit_eq_none {v : Byte}
    (h : v &&& 0x7F ∉ [(0x3F : Byte), 0x06, 0x5B, 0x4F, 0x66, 0x6D, 0x7D, 0x07, 0x7F, 0x6F]) : (decode7 v).digit = none := by
  rw [decode7_eq, Option.eq_none_iff_forall_ne_some]
  intro d hd
  apply h
  rw [and_pointMask_eq_segCode, ← (lookup_segtab_eq_some_iff _ d).mp hd]
  clear hd
  revert d
  decide

/-! ### Counting the readings (R99) -/

/-- The readings of the 128 codes under one point. -/
def codeReadings (dp : Bool) : List DigitReading := (List.range 128).map fun n => ⟨SEGTAB.lookup (BitVec.ofNat 7 n), dp⟩

theorem segByte_false_ofNat {n : Nat} (h : n < 128) : segByte false (BitVec.ofNat 7 n) = BitVec.ofNat 8 n := by
  revert n
  decide

theorem segByte_true_ofNat {n : Nat} (h : n < 128) : segByte true (BitVec.ofNat 7 n) = BitVec.ofNat 8 (128 + n) := by
  revert n
  decide

/-- The bytes below 128 are the codes without a point, the others the same codes with it. -/
theorem map_decode7_range :
    ((List.range 256).map fun n => decode7 (BitVec.ofNat 8 n)) = codeReadings false ++ codeReadings true := by
  rw [show 256 = 128 + 128 from rfl, List.range_add, List.map_append, List.map_map]
  refine congrArg₂ _ (List.map_congr_left fun n hn => ?_) (List.map_congr_left fun n hn => ?_)
  · rw [← segByte_false_ofNat (List.mem_range.mp hn), decode7_segByte]
  · rw [Function.comp_apply, ← segByte_true_ofNat (List.mem_range.mp hn), decode7_segByte]

/-- Under either point, the ten codes of the table give a digit. -/
theorem countP_isSome_codeReadings (dp : Bool) : (codeReadings dp).countP (fun r => r.digit.isSome) = 10 := by
  cases dp <;> decide

/-- Under either point, the other 118 codes give none. -/
theorem countP_isNone_codeReadings (dp : Bool) : (codeReadings dp).countP (fun r => r.digit.isNone) = 118 := by
  have hsum := List.length_eq_countP_add_countP (fun r : DigitReading => r.digit.isSome) (l := codeReadings dp)
  have hlen : (codeReadings dp).length = 128 := by rw [codeReadings, List.length_map, List.length_range]
  rw [hlen, countP_isSome_codeReadings] at hsum
  simp only [Bool.not_eq_true, Option.isSome_eq_false_iff, Bool.decide_eq_true] at hsum
  omega

theorem dp_of_mem_codeReadings {dp : Bool} {r : DigitReading} (h : r ∈ codeReadings dp) : r.dp = dp := by
  obtain ⟨n, -, rfl⟩ := List.mem_map.mp h
  rfl

/-- The readings without a digit that pass a test of their point, which is one point throughout. -/
theorem countP_isNone_and_codeReadings (dp : Bool) (test : Bool → Bool) :
    (codeReadings dp).countP (fun r => r.digit.isNone && test r.dp) = if test dp then 118 else 0 := by
  have hpoint : (codeReadings dp).countP (fun r => r.digit.isNone && test r.dp)
      = (codeReadings dp).countP (fun r => r.digit.isNone && test dp) :=
    List.countP_congr fun r hr => by rw [dp_of_mem_codeReadings hr]
  rw [hpoint]
  cases test dp with
  | true => simpa using countP_isNone_codeReadings dp
  | false => simp

/-- The bytes without a digit, by a test of their point. -/
theorem countP_isNone_decode7 (test : Bool → Bool) :
    ((List.range 256).map fun n => decode7 (BitVec.ofNat 8 n)).countP (fun r => r.digit.isNone && test r.dp)
      = (if test false then 118 else 0) + if test true then 118 else 0 := by
  rw [map_decode7_range, List.countP_append, countP_isNone_and_codeReadings, countP_isNone_and_codeReadings]

theorem countP_isSome_decode7 :
    ((List.range 256).map fun n => decode7 (BitVec.ofNat 8 n)).countP (fun r => r.digit.isSome) = 20 := by
  rw [map_decode7_range, List.countP_append, countP_isSome_codeReadings, countP_isSome_codeReadings]

/-! ### The obligations on segment bytes -/

/-- Settles O40, by the three kinds of row a byte can have. -/
theorem segmentRowsAreDecode7 : Obligations.SegmentRowsAreDecode7 := by
  intro v s
  change exec (decodeSeg7 v) s = .next (s.outDigit (decode7 v))
  rw [decode7_eq]
  unfold decodeSeg7
  split_ifs with hb
  · subst hb
    exact exec_segBlank s
  · split
    next d hd => rw [hd, exec_segRow]
    next hn => rw [hn, exec_segInvalid]

/-- Settles O39: the row of each digit is `segRow` of that digit. -/
theorem segmentRowsGiveReadings : Obligations.SegmentRowsGiveReadings :=
  fun dp seg s => ⟨exec_segBlank s, exec_segRow s 0 dp, exec_segRow s 1 dp, exec_segRow s 2 dp, exec_segRow s 3 dp,
    exec_segRow s 4 dp, exec_segRow s 5 dp, exec_segRow s 6 dp, exec_segRow s 7 dp, exec_segRow s 8 dp, exec_segRow s 9 dp,
    exec_segInvalid s dp seg⟩

/-- Settles O41: the blank byte and the twenty digit bytes are bytes `segByte` of a code, and the two general clauses speak of
the byte's point and code. -/
theorem decode7Table : Obligations.Decode7Table := by
  have digit := decode7_segByte_segcode
  refine ⟨decode7_segByte false 0, digit 0 false, digit 0 true, digit 1 false, digit 1 true, digit 2 false, digit 2 true,
    digit 3 false, digit 3 true, digit 4 false, digit 4 true, digit 5 false, digit 5 true, digit 6 false, digit 6 true,
    digit 7 false, digit 7 true, digit 8 false, digit 8 true, digit 9 false, digit 9 true, fun v _ => ?_,
    fun v => decode7_digit_eq_none⟩
  rw [decode7_eq]
  rfl

/-- Settles O42: each count is the sum over the codes without and with a point, and SYNC is the unlisted code `0x1B` with it. -/
theorem decode7Counts : Obligations.Decode7Counts := by
  have hnodup : (SEGTAB.map Prod.fst).Nodup := by decide
  have hzero : 0 ∉ SEGTAB.map Prod.fst := by decide
  exact ⟨countP_isSome_decode7, countP_isNone_decode7 id, countP_isNone_decode7 not, hnodup, hzero, rfl,
    decode7_segByte true 0x1B⟩

end Sys2Proof.Machine

/-! ## The height assembler family: Variant A by its points, Variant B, and their ranges (O43 to O47) -/

namespace Sys2Proof.Machine

open Config

/-! ### Where the points stand in Variant A's string (R100, R102) -/

section Points

variable {before : List Byte} {u : Byte} {a g : List Glyph}

theorem pointsIn_map_digit (ds : List (Fin 10)) : pointsIn (ds.map .digit) = 0 := by
  induction ds with
  | nil => rfl
  | cons d ds ih => exact ih

theorem digitsOf_map_digit (ds : List (Fin 10)) : digitsOf (ds.map .digit) = ds := by
  induction ds with
  | nil => rfl
  | cons d ds ih => exact congrArg (d :: ·) ih

theorem afterPoint_of_pointsIn_eq_zero (h : pointsIn g = 0) : afterPoint g = [] := by
  simpa [afterPoint] using afterPoint_append (b := []) h

theorem beforePoint_append_point (h : pointsIn a = 0) : beforePoint (a ++ .point :: g) = a := by
  rw [beforePoint_append h, beforePoint, List.append_nil]

/-- A flagged byte gives the digit it has, if any, and then its point (R100, R102). -/
theorem displayString_cons_of_dp (vs : List Byte) (hu : (decode7 u).dp = true) :
    displayString (u :: vs) = (keptDigits [u]).map .digit ++ .point :: displayString vs := by
  rw [displayString, List.flatMap_cons, ← displayString, glyphsOf, if_pos hu, List.append_assoc, List.singleton_append]
  cases hd : (decode7 u).digit <;> simp [keptDigits, hd]

/-- Through the first flagged byte, the string is the digits up to and with that byte's own, and then the point. -/
theorem displayString_upto_point (hb : ∀ v ∈ before, (decode7 v).dp = false) (hu : (decode7 u).dp = true) :
    ∃ a, pointsIn a = 0 ∧ digitsOf a = keptDigits (before ++ [u])
      ∧ ∀ after, displayString (before ++ u :: after) = a ++ .point :: displayString after := by
  refine ⟨displayString before ++ (keptDigits [u]).map .digit, ?_, ?_, fun after => ?_⟩
  · rw [pointsIn_append, pointsIn_displayString_none hb, pointsIn_map_digit]
  · rw [digitsOf_append, digitsOf_displayString, digitsOf_map_digit, keptDigits_append]
  · rw [displayString_append, displayString_cons_of_dp after hu, List.append_assoc]

end Points

/-! ### What Variant A parses, by the number of points (R101, R103, R104) -/

section VariantA

variable {rule : MultiPointRule} {p0 p1 p2 p3 : Byte} {g : List Glyph}

/-- PARSE by the digits of its string and those behind the point; the mantissa is the number the digits write (R104). -/
theorem parse_eq {ds after : List (Fin 10)} (hd : digitsOf g = ds) (ha : digitsOf (afterPoint g) = after) :
    parse g = if ds = [] then .invalid else .valid ⟨numeral ds, after.length⟩ := by
  rw [parse, decimal_eq_numeral, hd, ha]

theorem parse_of_no_digits (hd : digitsOf g = []) : parse g = .invalid := if_pos hd

theorem assembleA_of_pointsIn_lt_two (h : pointsIn (displayString [p0, p1, p2, p3]) < 2) :
    assembleA rule p0 p1 p2 p3 = parse (displayString [p0, p1, p2, p3]) := by
  rw [assembleA.eq_def, if_neg (Nat.not_le.mpr h)]
  split_ifs with hd
  · exact (parse_of_no_digits hd).symm
  · rfl

theorem assembleA_invalid_of_two_le_pointsIn (h : 2 ≤ pointsIn (displayString [p0, p1, p2, p3])) :
    assembleA .invalid p0 p1 p2 p3 = .invalid := by
  rw [assembleA, if_pos h, ite_self]

/-- A string without digits has none before its second point either, so the test before the cut changes nothing. -/
theorem assembleA_prefixCut_of_two_le_pointsIn (h : 2 ≤ pointsIn (displayString [p0, p1, p2, p3])) :
    assembleA .prefixCut p0 p1 p2 p3 = parse (cutSecondPoint (displayString [p0, p1, p2, p3])) := by
  rw [assembleA, if_pos h]
  split_ifs with hd
  · have hcut := digitsOf_length_le_of_prefix (cutSecondPoint_prefix (displayString [p0, p1, p2, p3]))
    rw [hd, List.length_nil, Nat.le_zero, List.length_eq_zero_iff] at hcut
    exact (parse_of_no_digits hcut).symm
  · rfl

end VariantA

/-! ### Variant B by the digits of its bytes (R105 to R107) -/

section VariantB

variable {q0 q1 q2 : Byte}

theorem assembleB_of_digits {d0 d1 d2 : Fin 10} (h0 : (decode7 q0).digit = some d0) (h1 : (decode7 q1).digit = some d1)
    (h2 : (decode7 q2).digit = some d2) :
    assembleB q0 q1 q2 = .valid ⟨100 * d0.val + 10 * d1.val + d2.val,
      if (decode7 q0).dp || (decode7 q1).dp || (decode7 q2).dp then 1 else 0⟩ := by
  rw [assembleB, h0, h1, h2]

theorem assembleB_of_absent (h : (decode7 q0).digit = none ∨ (decode7 q1).digit = none ∨ (decode7 q2).digit = none) :
    assembleB q0 q1 q2 = .invalid := by
  unfold assembleB
  split
  next h0 h1 h2 => simp [h0, h1, h2] at h
  next => rfl

end VariantB

/-! ### The obligations on heights -/

/-- Settles O43: with at most one point the whole string is parsed, and the digits behind the point are those of the bytes after
the flagged one. -/
theorem variantAWithOnePoint : Obligations.VariantAWithOnePoint := by
  refine fun rule p0 p1 p2 p3 => ⟨fun hno => ?_, fun before after u hp hu hno => ?_⟩
  · have hpoints := pointsIn_displayString_none hno
    rw [assembleA_of_pointsIn_lt_two (by omega)]
    exact parse_eq (after := []) (digitsOf_displayString _) (by rw [afterPoint_of_pointsIn_eq_zero hpoints, digitsOf])
  · obtain ⟨hbefore, hafter⟩ := List.forall_mem_append.mp hno
    obtain ⟨a, ha, -, hs⟩ := displayString_upto_point hbefore hu
    have hstring : displayString [p0, p1, p2, p3] = a ++ .point :: displayString after := hp ▸ hs after
    have hpoints : pointsIn (displayString [p0, p1, p2, p3]) < 2 := by
      rw [hstring, pointsIn_append, ha, pointsIn, pointsIn_displayString_none hafter]
      decide
    rw [assembleA_of_pointsIn_lt_two hpoints]
    refine parse_eq (digitsOf_displayString _) ?_
    rw [hstring, afterPoint_append ha, afterPoint, digitsOf_displayString]

/-- Settles O44: the string up to its second point is the digits through the first flagged byte, the point, and the digits through
the second. -/
theorem variantAWithSeveralPoints : Obligations.VariantAWithSeveralPoints := by
  intro p0 p1 p2 p3 before mid after u v hp hu hv hno
  obtain ⟨hbefore, hmid⟩ := List.forall_mem_append.mp hno
  obtain ⟨a, ha, hda, hsa⟩ := displayString_upto_point hbefore hu
  obtain ⟨b, hb, hdb, hsb⟩ := displayString_upto_point hmid hv
  have hstring : displayString [p0, p1, p2, p3] = a ++ .point :: (b ++ .point :: displayString after) := by
    rw [hp, List.append_assoc, List.cons_append, hsa, hsb]
  have hpoints : 2 ≤ pointsIn (displayString [p0, p1, p2, p3]) := by
    rw [hstring, pointsIn_append, pointsIn, pointsIn_append, pointsIn]
    omega
  have hcut : cutSecondPoint (displayString [p0, p1, p2, p3]) = a ++ .point :: b := by
    rw [hstring, cutSecondPoint_append ha, cutSecondPoint, beforePoint_append_point hb]
  refine ⟨assembleA_invalid_of_two_le_pointsIn hpoints, ?_⟩
  rw [assembleA_prefixCut_of_two_le_pointsIn hpoints, hcut]
  refine parse_eq ?_ ?_
  · rw [digitsOf_append, digitsOf, hda, hdb, ← keptDigits_append]
    simp
  · rw [afterPoint_append ha, afterPoint, hdb]

/-- Settles O45, by whether a byte without a digit is among the three. -/
theorem variantBFormula : Obligations.VariantBFormula := by
  refine fun q0 q1 q2 => ⟨assembleB_of_absent, fun d0 d1 d2 h0 h1 h2 => ?_⟩
  rw [assembleB_of_digits h0 h1 h2, Nat.mul_comm 100, Nat.mul_comm 10]
  simp only [Bool.or_eq_true, or_assoc]

/-- Settles O47: the ranges are those the records need, and three zero digits are a valid reading, which the short form emits. -/
theorem heightRanges : Obligations.HeightRanges := by
  have hzero : assembleB 0x3F 0x3F 0x3F = .valid ⟨0, 0⟩ := assembleB_of_digits (d0 := 0) (d1 := 0) (d2 := 0) rfl rfl rfl
  refine ⟨fun _ _ _ _ _ _ => assembleA_bounds, fun _ _ _ _ => assembleB_bounds, hzero, ?_⟩
  have hshort : classifyOrphan [0x07, 0x12, 0x3F, 0x3F, 0x3F, 0, 0, 0] = .ok (shortBranch 0x3F 0x3F 0x3F) :=
    classifyOrphan_short 0x3F 0x3F 0x3F (by simp)
  rw [hshort, shortBranch, heightEvents_of_valid hzero]

/-- Settles O46, by the formulas of O43 to O45: Variant B puts the point before its last digit, Variant A where the flagged byte
stands. -/
theorem variantsDiffer : Obligations.VariantsDiffer := by
  have hvalue : ¬Height.sameValue ⟨123, 1⟩ ⟨123, 0⟩ := by
    unfold Height.sameValue
    decide
  have hlast : ∀ rule, assembleA rule 0x06 0x5B 0xCF 0x00 = .valid ⟨123, 0⟩ := fun rule =>
    (variantAWithOnePoint rule 0x06 0x5B 0xCF 0x00).2 [0x06, 0x5B] [0x00] 0xCF rfl rfl (by decide)
  obtain ⟨htwo, htwoCut⟩ := variantAWithSeveralPoints 0x86 0xDB 0x4F 0x00 [] [] [0x4F, 0x00] 0x86 0xDB rfl rfl rfl (by simp)
  obtain ⟨hthree, hthreeCut⟩ :=
    variantAWithSeveralPoints 0x86 0x86 0x86 0x00 [] [] [0x86, 0x00] 0x86 0x86 rfl rfl rfl (by simp)
  exact ⟨assembleB_of_digits (d0 := 1) (d1 := 2) (d2 := 3) rfl rfl rfl, hlast, hvalue,
    assembleB_of_digits (d0 := 1) (d1 := 2) (d2 := 3) rfl rfl rfl, htwo, htwoCut, hthree, hthreeCut,
    assembleB_of_digits (d0 := 1) (d1 := 1) (d2 := 1) rfl rfl rfl⟩

end Sys2Proof.Machine

/-! ## The exceptions family: no step faults, diagnostics only add, and the idle block (O29, O54, O57) -/

namespace Sys2Proof.Machine

/-! ### Every instruction completes, and only a word without a row is refused (R34, R110) -/

section Completion

/-- END completes because SCAN is total; every other row's meaning answers a next state outright. -/
theorem exec_completes (i : Instr) (s : State) : ∃ t, exec i s = .next t := by
  cases i
  case endChunk =>
    obtain ⟨r, es, h⟩ := scan_total s.params s.buf
    exact ⟨_, exec_endChunk_of_scan h⟩
  case evDiag reason count =>
    rw [exec, execEvDiag]
    split <;> exact ⟨_, rfl⟩
  all_goals exact ⟨_, rfl⟩

/-- R93 gives a span that is no short form no effect; a word that cannot arise is refused (R28, R58, R78). -/
theorem rejectWord_next_or_refused (e : DecodeError) (s : State) :
    rejectWord e s = .next s ∨ ∃ r, rejectWord e s = .refused r := by
  cases e
  case notShortForm => exact .inl rfl
  all_goals exact .inr ⟨_, rfl⟩

/-- A step answers a next state, or it refuses the word that stands first, which decodes to no row. -/
theorem step_next_or_refused (s : State) :
    (∃ t, step s = .next t) ∨ ∃ c cs e r, s.input = c :: cs ∧ decode c = .error e ∧ step s = .refused r := by
  obtain ⟨-, hs⟩ | ⟨-, -, -, hs⟩ | ⟨-, -, hs⟩ | ⟨-, -, c, cs, hi, ⟨i, -, hs⟩ | ⟨e, hd, hs⟩⟩ := step_cases s <;> rw [hs]
  case inr.inr.inr.inl => exact .inl (exec_completes i _)
  case inr.inr.inr.inr =>
    exact (rejectWord_next_or_refused e _).imp (⟨_, ·⟩) fun ⟨r, hr⟩ => ⟨c, cs, e, r, hi, hd, hr⟩
  all_goals exact .inl ⟨_, rfl⟩

/-- A host command word always has a row (R49), so the block refuses nothing its host presents. -/
theorem step_completes_of_hostDriven {s : State} (h : s.hostDriven = true) : ∃ t, step s = .next t := by
  obtain ht | ⟨c, cs, e, -, hi, hd, -⟩ := step_next_or_refused s
  · exact ht
  · obtain ⟨w, rfl⟩ := State.hostDriven_head h hi
    cases hd

end Completion

/-- Settles O57: every instruction completes, and the words of a host all have a row. -/
theorem noStepFaults : Obligations.NoStepFaults := by
  refine fun s => ⟨fun f hf => ?_, fun hh => ?_⟩
  · obtain ⟨t, hs⟩ | ⟨c, cs, e, r, -, -, hs⟩ := step_next_or_refused s <;> rw [hs] at hf <;> cases hf
  · obtain ⟨t, ht⟩ := step_completes_of_hostDriven hh
    exact ⟨t, ht, step_keeps_hostDriven hh ht⟩

/-! ### Diagnostics come from the discard points only (R117) -/

section Diagnostics

variable {p : Params} {es : List Event}

theorem filter_not_isDiag_of_forall (h : ∀ e ∈ es, e.isDiag = false) : es.filter (fun e => !e.isDiag) = es :=
  List.filter_eq_self.mpr fun e he => by rw [h e he]; rfl

theorem diagEvents_filter_not_isDiag (p : Params) (reason : DiagReason) (count : Nat) :
    (diagEvents p reason count).filter (fun e => !e.isDiag) = [] := by
  rw [diagEvents]
  split <;> rfl

theorem heightEvents_not_isDiag (r : HeightReading) : ∀ e ∈ heightEvents r, e.isDiag = false := by
  cases r <;> simp [heightEvents, Event.isDiag]

theorem classifyFrame_not_isDiag {f : List Byte} (hf : isFrame f = true) (h : classifyFrame p f = .ok es) :
    ∀ e ∈ es, e.isDiag = false := by
  obtain ⟨p0, p1, p2, p3, m7, m8, t, rfl⟩ | ⟨v1, v2, m5, t, rfl⟩ | ⟨len, ty, rest, rfl, -, hH, hS⟩ := isFrame_cases hf
  · rw [classifyFrame_height] at h
    cases h
    exact heightEvents_not_isDiag _
  · rw [classifyFrame_status] at h
    cases h
    simp [statusBranch, Event.isDiag]
  · rw [classifyFrame_unknown p rest hH hS] at h
    cases h
    simp [unknownBranch, Event.isDiag]

theorem classifyOrphan_not_isDiag {b : List Byte} (h : classifyOrphan b = .ok es) : ∀ e ∈ es, e.isDiag = false := by
  obtain ⟨d0, d1, d2, rest, -, -, hb⟩ | ⟨-, hb⟩ := classifyOrphan_cases b <;> rw [hb] at h <;> cases h
  · exact heightEvents_not_isDiag _
  · simp

/-- The classifier does not read DIAG_ENABLE. -/
theorem classifyFrame_diagEnable (p : Params) (d : Bool) (f : List Byte) :
    classifyFrame { p with diagEnable := d } f = classifyFrame p f := rfl

/-- Without DIAG_ENABLE step 3 emits what it emits in the build `p`, less the diagnostic (R78). -/
theorem orphanEvents_diagEnable_false (p : Params) (b : List Byte) :
    orphanEvents { p with diagEnable := false } b = (orphanEvents p b).filter (fun e => !e.isDiag) := by
  by_cases hb : b = []
  · simp [hb]
  · obtain ⟨eb, hc, -⟩ := classifyOrphan_ok b
    rw [orphanEvents_of_ok hb hc, orphanEvents_of_ok hb hc, List.filter_append, diagEvents_filter_not_isDiag,
      filter_not_isDiag_of_forall (classifyOrphan_not_isDiag hc)]
    rfl

/-- Without DIAG_ENABLE SCAN leaves the BUF it leaves in the build `p`, and emits the same events less the diagnostics. -/
theorem scan_diagEnable_false (p : Params) (m : Memory) :
    ∃ r es, scan p m = .ok (r, es)
      ∧ scan { p with diagEnable := false } m = .ok (r, es.filter (fun e => !e.isDiag)) := by
  induction m using scan_induction with
  | short m hm => exact ⟨_, _, scan_short p hm, scan_short _ hm⟩
  | noSync m hm hs =>
    refine ⟨_, _, scan_noSync p hm hs, ?_⟩
    rw [diagEvents_filter_not_isDiag]
    exact scan_noSync _ hm hs
  | suspend b m hm hb hs =>
    refine ⟨_, _, scan_suspended p hm hb hs, ?_⟩
    rw [← orphanEvents_diagEnable_false]
    exact scan_suspended _ hm hb hs
  | frame b f rest hm hb hf ih =>
    obtain ⟨r, er, hr, hr'⟩ := ih
    obtain ⟨ef, hc, -⟩ := classifyFrame_ok p hf
    refine ⟨_, _, scan_frame p hm hb hf hc hr, ?_⟩
    rw [List.filter_append, List.filter_append, ← orphanEvents_diagEnable_false,
      filter_not_isDiag_of_forall (classifyFrame_not_isDiag hf hc)]
    exact scan_frame _ hm hb hf ((classifyFrame_diagEnable p false f).trans hc) hr'

end Diagnostics

/-- Settles O29: the events without DIAG_ENABLE are those of the build with it, less the diagnostics. -/
theorem diagnosticsOnlyAdd : Obligations.DiagnosticsOnlyAdd := by
  intro p m
  obtain ⟨r, es, hon, hoff⟩ := scan_diagEnable_false { p with diagEnable := true } m
  refine ⟨r, _, es, hoff, hon, rfl, ?_⟩
  exact List.all_eq_true.mpr fun e he => (List.mem_filter.mp he).2

/-! ### The idle block (R124) -/

/-- With no reset, no byte in the output stage and no word waiting, a step only uses up an entry of the schedule. -/
theorem step_of_idle {s : State} (hr : s.linesNow.rst = false) (hs : s.evtStage = []) (hi : s.input = []) :
    step s = .next s.dropLines := by
  simp [step, hr, hs, hi]

/-- Settles O54: the outputs with an empty output stage, and the idle step. -/
theorem idleHoldsBuffer : Obligations.IdleHoldsBuffer := by
  intro s hr hs hi
  have hready : s.cmdReady = true := by simp [State.cmdReady, hr, hs]
  have hout : s.evtOut = none := by simp [State.evtOut, State.evtValid, hs]
  exact ⟨hready, hout, step_of_idle hr hs hi⟩

end Sys2Proof.Machine

/-! ## The reset and hazards family: `rst`, a stalled consumer, and a frame left pending (O2, O28, O52, O53) -/

namespace Sys2Proof.Machine

/-! ### A pending frame (R82, R126) -/

/-- Settles O28: the frame fits a legal BUF_CAP, so the chunk makes all of BUF the frame, and the scan extracts it. That SCAN had
suspended on its beginning is not needed: END reads BUF and the parameters only. -/
theorem pendingFrameIsCompleted : Obligations.PendingFrameIsCompleted := by
  intro s more hp _ hf hl
  obtain ⟨es, hc, -⟩ := classifyFrame_ok s.params hf
  have hframe := (isFrame_length hf).2
  have hcap := (Params.wf_iff _).mp hp
  have hfits : s.buf.length + more.length ≤ s.params.bufCap := by
    rw [← List.length_append]
    omega
  refine ⟨es, hc, ?_⟩
  rw [chunkIsAppendThenScan more s hfits]
  exact exec_endChunk_of_scan (s := s.setBuf (s.buf ++ more)) (scan_whole_frame hf hl hc)

/-! ### A step and a run under `rst`, and with a consumer that takes nothing (R125, R127, R138) -/

section Levels

variable {s t : State}

theorem step_of_rst (hr : s.linesNow.rst = true) : step s = .next s.dropLines.hardwareReset := by
  simp [step, hr]

theorem State.cmdReady_of_stage_ne_nil (hs : s.evtStage ≠ []) : s.cmdReady = false := by
  simp [State.cmdReady, hs]

theorem stepN_add_of_stepN {k : Nat} (h : stepN k s = .next t) (n : Nat) : stepN (k + n) s = stepN n t := by
  induction k generalizing s with
  | zero => cases h; rw [Nat.zero_add]
  | succ k ih =>
    rw [Nat.succ_add]
    cases hs : step s with
    | next u => rw [stepN_succ_of_step hs] at h ⊢; exact ih h
    | fault f => rw [stepN, hs] at h; cases h
    | refused r => rw [stepN, hs] at h; cases h

/-- While a byte waits and the consumer takes none, `k` steps only use up `k` entries of the schedule. -/
theorem stepN_of_stalled {k : Nat} (hs : s.evtStage ≠ [])
    (hl : ∀ j < k, s.linesAt j = { rst := false, evtReady := false }) :
    stepN k s = .next { s with lines := s.lines.drop k } := by
  induction k generalizing s with
  | zero => rfl
  | succ k ih =>
    have hnow : s.linesNow = { rst := false, evtReady := false } := s.linesNow_eq_linesAt.trans (hl 0 k.succ_pos)
    have hstep : step s = .next s.dropLines := step_of_stalled (by rw [hnow]) (by rw [hnow]) hs
    have hrest : stepN k s.dropLines = _ := ih hs fun j hj => (s.dropLines_linesAt j).trans (hl (j + 1) (by omega))
    rw [stepN_succ_of_step hstep, hrest, State.dropLines_lines, List.drop_tail]
    rfl

/-- The levels of a schedule's first `k` entries, where these are all alike. -/
theorem State.linesAt_of_lines_eq_replicate_append {k : Nat} {l : Lines} {later : List Lines}
    (h : s.lines = List.replicate k l ++ later) {j : Nat} (hj : j < k) : s.linesAt j = l := by
  rw [State.linesAt, h, List.getD_append _ _ _ _ (by simpa using hj), List.getD_replicate _ hj]

end Levels

/-- Settles O2: the outputs while `rst` is 1, the step of a reset, and the empty output stage behind it. -/
theorem hardwareResetAbandonsCommand : Obligations.HardwareResetAbandonsCommand := by
  intro s hr
  refine ⟨by simp [State.cmdReady, hr], by simp [State.evtValid, hr], _, step_of_rst hr, rfl, fun h => ?_⟩
  rw [State.cmdReady, h]
  rfl

/-- Settles O52: any number of stalled steps only use up the schedule, and with the levels low for good every step is one. -/
theorem stalledConsumerHoldsTheCommand : Obligations.StalledConsumerHoldsTheCommand := by
  refine ⟨fun s k hs hl => ⟨stepN_of_stalled hs hl, State.cmdReady_of_stage_ne_nil hs, State.cmdReady_of_stage_ne_nil hs⟩,
    fun s hs hl ha k => ?_⟩
  have hrun := stepN_of_stalled (k := k) hs fun j _ => State.linesAt_of_forall hl ha j
  exact ⟨_, hrun, State.cmdReady_of_stage_ne_nil hs, rfl, rfl, rfl, rfl⟩

/-- Settles O53: the `k` steps before `rst` deliver `k` bytes, and the step after them is a reset. -/
theorem resetDuringEndDeliversAPrefix : Obligations.ResetDuringEndDeliversAPrefix := by
  intro s k later ready hk hlines
  have htaken := stepN_of_ready hk fun _ hj => State.linesAt_of_lines_eq_replicate_append hlines hj
  have hdrop : s.lines.drop k = { rst := true, evtReady := ready } :: later := by
    rw [hlines, List.drop_left' List.length_replicate]
  rw [stepN_add_of_stepN htaken, hdrop, stepN_succ_of_step (step_of_rst rfl)]
  rfl

end Sys2Proof.Machine
